-- ==== Sys2Proof/Word.lean ====
section
/-! DEFINITION. The words and bytes of the SipHash core (00_scope.md R5, R6, R8). -/

namespace Sys2Proof

/-- A 64-bit word: one HashState word, key word, tag word or host register (R5, WORD = PORT_WIDTH = 64).
Its `+` and `^^^` wrap and carry nothing out (R7). -/
abbrev Word := BitVec 64

/-- A byte of the stream (R8). -/
abbrev Byte := BitVec 8

end Sys2Proof
end

