-- ==== Sys2Proof/Config.lean ====
section
/-! DEFINITION. The names the interface is built from (variants, tag widths, register names) and the
parameters the spec leaves to the platform (00_scope.md R2, R5; 10_state.md R24). -/

namespace Sys2Proof

/-- The two supported variants (R2, 30_encoding.md R54). VAR never holds 2 or 3 (10_state.md R18), so the latched
selector has these two values only (log 6, DEDUCED). -/
inductive Variant where
  /-- VAR = 0: SipHash-2-4, "balanced/default". -/
  | sip24
  /-- VAR = 1: SipHash-1-3, "fast/reduced-security". -/
  | sip13
deriving DecidableEq, Repr

/-- The tag-width mode W (10_state.md R19). -/
inductive TagWidth where
  /-- W = 0: one 64-bit word. -/
  | tag64
  /-- W = 1: two 64-bit words. -/
  | tag128
deriving DecidableEq, Repr

/-- The eight host registers, indices 0 to 7 in this order (10_state.md R24). -/
inductive PortReg where
  | cmd
  | din
  | key0
  | key1
  | tag0
  | tag1
  | status
  /-- Index 7, which holds no state (10_state.md R31). -/
  | reserved7
deriving DecidableEq, Repr

/-- TAG128_ALGO (R5): which 128-bit finalization the block implements. -/
inductive Tag128Algo where
  /-- The source's algorithm, as 90_conflicts.md C1 resolves it (44_finalization.md R89). The default. -/
  | doc
  /-- The published SipHash-128 mode (44_finalization.md R90). -/
  | ref
deriving DecidableEq, Repr

/-- HOST_BUS_ORDER (R5, 20_memory.md R42). -/
inductive BusOrder where
  | little
  | big
deriving DecidableEq, Repr

/-- The spec's parameters (R5). They are fixed for a run: State carries them so that every statement about all states
holds for every value of them, and no step changes them (log 4, DESIGN CHOICE). -/
structure Params where
  /-- TAG128_ALGO. -/
  tag128Algo : Tag128Algo
  /-- BASE: the byte address of register 0. -/
  base : Nat
  /-- HOST_BUS_ORDER. -/
  busOrder : BusOrder
deriving DecidableEq, Repr

/-- The parameters of `State.reset`: the defaults of R5, and 0 for BASE, which has none (log 5, DESIGN CHOICE). -/
def Params.default : Params where
  tag128Algo := .doc
  base := 0
  busOrder := .little

end Sys2Proof
end

