-- ==== Sys2Proof/Syntax.lean ====
section
/-! DEFINITION. The instructions of the SipHash core: the five rows of the opcode table (30_encoding.md R49, R53, R55,
R56). Operand fields whose encoding has reserved values keep the encoding's width; `WellFormed` says which are legal. -/

namespace Sys2Proof

inductive Instr where
  /-- RD: a host read of one register (R49, 45_host_port.md R97). -/
  | rd (r : PortReg)
  /-- WR: a host write of one register, with its 64-bit data (R49, 45_host_port.md R98). -/
  | wr (r : PortReg) (v : Word)
  /-- INIT, with the fields W and VAR (R53). -/
  | init (w : TagWidth) (var : BitVec 2)
  /-- WRITE, with the byte count N (R55). -/
  | write (n : BitVec 4)
  /-- FINISH (R56). -/
  | finish
deriving DecidableEq, Repr

end Sys2Proof
end

