-- ==== Sys2Proof/WellFormed.lean ====
section
/-! DEFINITION. Which instructions have an encoding that is not reserved (30_encoding.md R49, R54, R55). -/

namespace Sys2Proof

/-- VAR 2 and 3 are reserved (R54) and so are the byte counts 9 to 15 (R55). Every port transaction is legal (R49). -/
def Instr.wellFormed : Instr → Bool
  | .rd _ => true
  | .wr _ _ => true
  | .init _ var => var.toNat < 2
  | .write n => n.toNat ≤ 8
  | .finish => true

/-- The instruction has a legal encoding. -/
abbrev WellFormed (i : Instr) : Prop := i.wellFormed = true

end Sys2Proof
end

