-- ==== Sys2Proof/Decode.lean ====
section
/-! DEFINITION. Decoding port descriptors and command words, and encoding them again (30_encoding.md R48 to R58). -/

namespace Sys2Proof

/-- The two encoded forms of R48: a port transaction, which is a 4-bit descriptor and 64 data lines (R49; a read
carries no data and the port ignores the lines, log 11), and a command word, the 64-bit data of a write to CMD (R50). -/
inductive Code where
  | port (desc : BitVec 4) (data : Word)
  | command (v : Word)
deriving DecidableEq, Repr

/-- Why a command word is reserved (R58): Reserved(1) and Reserved(2) of R57. -/
inductive Reserved where
  /-- OP is 0x0 or 0x4 to 0xF. -/
  | opcode
  /-- A reserved bit is 1, or VAR is 2 or 3, or N is 9 to 15. -/
  | field
deriving DecidableEq, Repr

/-- A command that decoding accepted (R57). -/
inductive Command where
  | init (w : TagWidth) (var : BitVec 2)
  | write (n : BitVec 4)
  | finish
deriving DecidableEq, Repr

def Command.toInstr : Command → Instr
  | .init w var => .init w var
  | .write n => .write n
  | .finish => .finish

/-- The register an index names (10_state.md R24). -/
def PortReg.ofIndex (i : BitVec 3) : PortReg :=
  match i.toNat with
  | 0 => .cmd
  | 1 => .din
  | 2 => .key0
  | 3 => .key1
  | 4 => .tag0
  | 5 => .tag1
  | 6 => .status
  | _ => .reserved7

/-- The index of a register (10_state.md R24). -/
def PortReg.index : PortReg → BitVec 3
  | .cmd => 0
  | .din => 1
  | .key0 => 2
  | .key1 => 3
  | .tag0 => 4
  | .tag1 => 5
  | .status => 6
  | .reserved7 => 7

/-- The width a W bit selects (R53). -/
def TagWidth.ofBit (b : Bool) : TagWidth := if b then .tag128 else .tag64

/-- The W bit of a width (R53). -/
def TagWidth.bit : TagWidth → BitVec 1
  | .tag64 => 0
  | .tag128 => 1

/-- The variant a VAR field selects; 2 and 3 are reserved (R54). -/
def Variant.ofCode (c : BitVec 2) : Option Variant :=
  if c = 0 then some .sip24 else if c = 1 then some .sip13 else none

/-- The VAR value of a variant (R54). -/
def Variant.code : Variant → BitVec 2
  | .sip24 => 0
  | .sip13 => 1

/-- The fields of a command word: OP (R50), W and VAR (R53), N (R55). -/
def opField (v : Word) : BitVec 4 := v.extractLsb' 0 4

def wField (v : Word) : Bool := v.getLsbD 4

def varField (v : Word) : BitVec 2 := v.extractLsb' 5 2

def nField (v : Word) : BitVec 4 := v.extractLsb' 4 4

/-- Decode(v) of R57, total on every 64-bit word. -/
def decodeCommand (v : Word) : Except Reserved Command :=
  if opField v = 0x1 then
    if v.extractLsb' 7 57 ≠ 0 ∨ 2 ≤ (varField v).toNat then .error .field
    else .ok (.init (.ofBit (wField v)) (varField v))
  else if opField v = 0x2 then
    if v.extractLsb' 8 56 ≠ 0 ∨ 8 < (nField v).toNat then .error .field
    else .ok (.write (nField v))
  else if opField v = 0x3 then
    if v.extractLsb' 4 60 ≠ 0 then .error .field
    else .ok .finish
  else .error .opcode

/-- A port descriptor (R49): bit 3 is DIR (1 = write), bits 2:0 are IDX. All 16 values are legal. -/
def decodePort (desc : BitVec 4) (data : Word) : Instr :=
  if desc.getLsbD 3 then .wr (.ofIndex (desc.extractLsb' 0 3)) data
  else .rd (.ofIndex (desc.extractLsb' 0 3))

/-- The instruction an encoded form stands for, or the name of the reason it is reserved. -/
def decode : Code → Except Reserved Instr
  | .port desc data => .ok (decodePort desc data)
  | .command v => (decodeCommand v).map Command.toInstr

/-- The descriptors `RD i = 0b0iii` and `WR i = 0b1iii` (R49). -/
def rdDescriptor (r : PortReg) : BitVec 4 := 0#1 ++ r.index

def wrDescriptor (r : PortReg) : BitVec 4 := 1#1 ++ r.index

/-- The command words of R53, R55 and R56, field by field from the most significant bit. -/
def initWord (w : TagWidth) (var : BitVec 2) : Word := 0#57 ++ var ++ w.bit ++ 0b0001#4

def writeWord (n : BitVec 4) : Word := 0#56 ++ n ++ 0b0010#4

def finishWord : Word := 0#60 ++ 0b0011#4

def encodeCommand : Command → Word
  | .init w var => initWord w var
  | .write n => writeWord n
  | .finish => finishWord

/-- The encoded form of an instruction. -/
def encode : Instr → Code
  | .rd r => .port (rdDescriptor r) 0
  | .wr r v => .port (wrDescriptor r) v
  | .init w var => .command (initWord w var)
  | .write n => .command (writeWord n)
  | .finish => .command finishWord

/-- The encoded form the opcode table's numbering gives (log 11, DESIGN CHOICE): a row of 64 bits is a command word;
any other row is a port transaction, whose descriptor is bits 3:0 and whose data lines are bits 67:4. -/
def tableCode (nbits w : Nat) : Code :=
  if nbits = 64 then .command (BitVec.ofNat 64 w)
  else .port (BitVec.ofNat 4 w) (BitVec.ofNat 64 (w / 16))

/-- The bits of the longest instruction of a row: 64 for a command word, 68 for a port transaction. -/
def tableWidth (nbits : Nat) : Nat := if nbits = 64 then 64 else 68

/-- The instruction the decoder reads from a word numbered as the opcode table numbers it. -/
def decodeTableWord (nbits w : Nat) : Option Instr :=
  if w < 2 ^ tableWidth nbits then (decode (tableCode nbits w)).toOption else none

end Sys2Proof
end

