-- ==== Sys2Proof/Machine/State.lean ====
section
/-! DEFINITION. The state of the SipHash core (10_state.md R13 to R33), the host's side of the port, and the reasons a
step can stop. All of it is plain data. -/

namespace Sys2Proof.Machine

/-- The HashState V0, V1, V2, V3 (10_state.md R14). -/
structure HashState where
  v0 : Word
  v1 : Word
  v2 : Word
  v3 : Word
deriving DecidableEq, Repr

/-- The block's state, exactly the elements of 10_state.md R13. NTAIL, CMD and STATUS are views of it. -/
structure Block where
  /-- V0..V3 (R14). -/
  v : HashState
  /-- TAIL, the oldest byte first; between transactions its length is 0 to 7 (R15, R16). -/
  tail : List Byte
  /-- LEN, the bytes appended since the last accepted INIT, modulo 2^64 (R17). -/
  len : Word
  /-- VAR (R18). -/
  var : Variant
  /-- W (R19). -/
  w : TagWidth
  /-- INITD (R20). -/
  initd : Bool
  /-- ERR (R21). -/
  err : Bool
  /-- ECODE (R22). -/
  ecode : BitVec 4
  /-- TV (R23). -/
  tv : Bool
  /-- DIN (R26). -/
  din : Word
  /-- KEY0 (R27). -/
  key0 : Word
  /-- KEY1 (R27). -/
  key1 : Word
  /-- TAG0 (R28). -/
  tag0 : Word
  /-- TAG1 (R28). -/
  tag1 : Word
deriving DecidableEq, Repr

/-- What can reach the block from outside, each a whole, indivisible event (20_memory.md R45). -/
inductive HostEvent where
  /-- A port transaction: its descriptor and its data lines (30_encoding.md R49). -/
  | port (desc : BitVec 4) (data : Word)
  /-- A read of `size` bytes at a byte address, on a platform that maps the port on a byte-addressed bus (R36). -/
  | busRead (addr size : Nat)
  /-- A write of these bytes, the one at the lowest address first, on such a bus (R36, R42). -/
  | busWrite (addr : Nat) (bytes : List Byte)
  /-- The reset event (70_reset_and_hazards.md R119). -/
  | reset
deriving DecidableEq, Repr

/-- The host's side of the port: the MODEL's own fields, no state of the block (log 1 and 3, DESIGN CHOICE). -/
structure HostSide where
  /-- The events that have not taken place yet, in the order they reach the port. -/
  pending : List HostEvent
  /-- The 64 bits the last read transaction returned, if there was one. -/
  readData : Option Word
deriving DecidableEq, Repr

structure State where
  block : Block
  host : HostSide
  params : Params
deriving DecidableEq, Repr

/-- The machine has no faults: the algorithm cannot fail and the block takes no traps (60_exceptions.md R105, R110).
An error is a recorded outcome in STATUS. -/
inductive Fault : Type
deriving DecidableEq, Repr

/-- Why a step refuses. No instruction of the opcode table does. -/
inductive Refusal where
  /-- An instruction without a meaning, raised by `exec`'s arm for it; no arm does. Safe: the run stops. -/
  | notModelled (mnemonic : String)
  /-- Raised by the bus bridge for an access to the block that is not 8 bytes wide and 8-byte aligned: "a model refuses
  a program that does" (20_memory.md R36; 93_implementation_defined.md I7); and, where BASE is no multiple of 8, for every
  access to the block (log 14, DESIGN CHOICE). Safe: the run stops. -/
  | busAccessUndefined
  /-- Raised by the bus bridge for an access outside the block's 64 bytes, which belongs to the platform
  (20_memory.md R37; log 9, DESIGN CHOICE). Safe: the run stops. -/
  | busAddressOutsideBlock
deriving DecidableEq, Repr

/-- The block after reset: every element at the value of 10_state.md R33. -/
def Block.reset : Block where
  v := ⟨0, 0, 0, 0⟩
  tail := []
  len := 0
  var := .sip24
  w := .tag64
  initd := false
  err := false
  ecode := 0
  tv := false
  din := 0
  key0 := 0
  key1 := 0
  tag0 := 0
  tag1 := 0

/-- The machine right after reset, with no host event waiting (log 1) and the parameters' defaults (log 4, 5). -/
def State.reset : State where
  block := .reset
  host := ⟨[], none⟩
  params := .default

end Sys2Proof.Machine
end

