-- ==== Sys2Proof/Machine/Sip.lean ====
section
/-! DEFINITION. The SipHash arithmetic: byte sequences and words, SipRound, compression, initialization, padding and
finalization (00_scope.md R8, R10; 40_sipround.md; 41_compression.md; 42_initialization.md R70; 44_finalization.md). All
of it is total and sets no flag (60_exceptions.md R105, 10_state.md R34). -/

namespace Sys2Proof

/-- C(VAR), the compression rounds (00_scope.md R5). -/
def Variant.cRounds : Variant → Nat
  | .sip24 => 2
  | .sip13 => 1

/-- D(VAR), the finalization rounds (00_scope.md R5). -/
def Variant.dRounds : Variant → Nat
  | .sip24 => 4
  | .sip13 => 3

end Sys2Proof

namespace Sys2Proof.Machine

/-- le64(s) of 00_scope.md R8: byte i of `s` in bits 8i+7:8i, the bytes past the end read as zero. -/
def le64 : List Byte → Word
  | [] => 0
  | b :: bs => b.setWidth 64 ||| (le64 bs <<< 8)

/-- Byte lane j of a word, bits 8j+7:8j (20_memory.md R39). -/
def byteLane (x : Word) (j : Nat) : Byte := x.extractLsb' (8 * j) 8

/-- bytes_le(x) of 00_scope.md R8: the eight lanes of x, the least significant first. -/
def bytesLe (x : Word) : List Byte := (List.range 8).map (byteLane x)

/-- rotl(x, r) of 40_sipround.md R63, for 1 ≤ r ≤ 63. -/
def rotl (x : Word) (r : Nat) : Word := (x <<< r) ||| (x >>> (64 - r))

/-- rotr(x, r) = rotl(x, 64 - r) (40_sipround.md R65). -/
def rotr (x : Word) (r : Nat) : Word := rotl x (64 - r)

/-- SipRound(S) of 40_sipround.md R62: its four lines, each seeing the ones before it. -/
def sipRound (s : HashState) : HashState :=
  let ⟨v0, v1, v2, v3⟩ := s
  let v0 := v0 + v1; let v1 := rotl v1 13; let v1 := v1 ^^^ v0; let v0 := rotl v0 32
  let v2 := v2 + v3; let v3 := rotl v3 16; let v3 := v3 ^^^ v2
  let v0 := v0 + v3; let v3 := rotl v3 21; let v3 := v3 ^^^ v0
  let v2 := v2 + v1; let v1 := rotl v1 17; let v1 := v1 ^^^ v2; let v2 := rotl v2 32
  ⟨v0, v1, v2, v3⟩

/-- SipRoundInv of 40_sipround.md R65. The block never computes it. -/
def sipRoundInv (s : HashState) : HashState :=
  let ⟨v0, v1, v2, v3⟩ := s
  let v2 := rotr v2 32; let v1 := v1 ^^^ v2; let v1 := rotr v1 17; let v2 := v2 - v1
  let v3 := v3 ^^^ v0; let v3 := rotr v3 21; let v0 := v0 - v3
  let v3 := v3 ^^^ v2; let v3 := rotr v3 16; let v2 := v2 - v3
  let v0 := rotr v0 32; let v1 := v1 ^^^ v0; let v1 := rotr v1 13; let v0 := v0 - v1
  ⟨v0, v1, v2, v3⟩

/-- rounds(S, k) of 40_sipround.md R64. -/
def rounds (s : HashState) : Nat → HashState
  | 0 => s
  | k + 1 => rounds (sipRound s) k

/-- xor4(S) of 00_scope.md R10, the tag extraction of 44_finalization.md R88. -/
def xor4 (s : HashState) : Word := s.v0 ^^^ s.v1 ^^^ s.v2 ^^^ s.v3

/-- XOR of a word into one word of a HashState. -/
def HashState.xorV0 (s : HashState) (m : Word) : HashState := { s with v0 := s.v0 ^^^ m }

def HashState.xorV1 (s : HashState) (m : Word) : HashState := { s with v1 := s.v1 ^^^ m }

def HashState.xorV2 (s : HashState) (m : Word) : HashState := { s with v2 := s.v2 ^^^ m }

def HashState.xorV3 (s : HashState) (m : Word) : HashState := { s with v3 := s.v3 ^^^ m }

/-- Compress(S, m, c) of 41_compression.md R67. -/
def compress (s : HashState) (m : Word) (c : Nat) : HashState := (rounds (s.xorV3 m) c).xorV0 m

/-- The four constants of 42_initialization.md R70 with the key words folded in. -/
def keyedState (k0 k1 : Word) : HashState :=
  ⟨k0 ^^^ 0x736f6d6570736575, k1 ^^^ 0x646f72616e646f6d, k0 ^^^ 0x6c7967656e657261, k1 ^^^ 0x7465646279746573⟩

/-- InitState(k0, k1, w) of 42_initialization.md R70. Only REF in 128-bit mode adds 0xee to v1. -/
def initState (algo : Tag128Algo) (k0 k1 : Word) (w : TagWidth) : HashState :=
  match algo, w with
  | .ref, .tag128 => (keyedState k0 k1).xorV1 0xee
  | .ref, .tag64 => keyedState k0 k1
  | .doc, .tag128 => keyedState k0 k1
  | .doc, .tag64 => keyedState k0 k1

/-- PadBlock(TAIL, LEN) of 44_finalization.md R85. -/
def padBlock (tail : List Byte) (len : Word) : Word :=
  le64 tail ||| (((len.setWidth 8).setWidth 64) <<< 56)

/-- Finalize64(s2, d) of 44_finalization.md R87. -/
def finalize64 (s2 : HashState) (d : Nat) : Word := xor4 (rounds (s2.xorV2 0xff) d)

/-- Finalize128_DOC(s2, d) of 44_finalization.md R89: both passes start from s2 (90_conflicts.md C1). -/
def finalize128Doc (s2 : HashState) (d : Nat) : Word × Word :=
  (xor4 (rounds (s2.xorV2 0xff) d), xor4 (rounds (s2.xorV1 0xdd) d))

/-- Finalize128_REF(s2, d) of 44_finalization.md R90: the second pass continues from the first. -/
def finalize128Ref (s2 : HashState) (d : Nat) : Word × Word :=
  let a := rounds (s2.xorV2 0xee) d
  (xor4 a, xor4 (rounds (a.xorV1 0xdd) d))

/-- TAG0 and TAG1 for the latched width (44_finalization.md R92). -/
def finalizeTags (algo : Tag128Algo) (w : TagWidth) (s2 : HashState) (d : Nat) : Word × Word :=
  match w, algo with
  | .tag64, .doc => (finalize64 s2 d, 0)
  | .tag64, .ref => (finalize64 s2 d, 0)
  | .tag128, .doc => finalize128Doc s2 d
  | .tag128, .ref => finalize128Ref s2 d

end Sys2Proof.Machine
end

