-- ==== Sys2Proof/Machine/Flags.lean ====
section
/-! DEFINITION. The flags and their view STATUS (10_state.md R16, R29, R34), the error codes (60_exceptions.md R106), the
streaming state machine's states (43_streaming.md R75) and the 128-bit view of the tag (44_finalization.md R91). -/

namespace Sys2Proof.Machine

/-- The causes of a rejected command (60_exceptions.md R106). -/
inductive ErrorCode where
  /-- Code 1, reserved opcode. -/
  | reservedOpcode
  /-- Code 2, reserved field. -/
  | reservedField
  /-- Code 3, not initialized. -/
  | notInitialized
deriving DecidableEq, Repr

/-- The value recorded in ECODE (60_exceptions.md R106). -/
def ErrorCode.value : ErrorCode → BitVec 4
  | .reservedOpcode => 1
  | .reservedField => 2
  | .notInitialized => 3

/-- Reserved(1) and Reserved(2) of 30_encoding.md R57 are reported as codes 1 and 2 (R58). -/
def ErrorCode.ofReserved : Reserved → ErrorCode
  | .opcode => .reservedOpcode
  | .field => .reservedField

/-- A flag as a 64-bit value, `zext_64` of one bit (00_scope.md R6). -/
def flagWord (b : Bool) : Word := if b then 1 else 0

/-- NTAIL, the length of the tail (R16). -/
def Block.ntail (b : Block) : Nat := b.tail.length

/-- STATUS (R29), assembled when it is read. -/
def statusWord (b : Block) : Word :=
  flagWord b.initd ||| (flagWord b.err <<< 1) ||| (flagWord b.tv <<< 2) ||| (b.ecode.setWidth 64 <<< 4)
    ||| (((BitVec.ofNat 3 b.ntail).setWidth 64) <<< 8) ||| (b.w.bit.setWidth 64 <<< 11)
    ||| (b.var.code.setWidth 64 <<< 12)

/-- The states of the streaming state machine (43_streaming.md R75). -/
inductive StreamState where
  | uninit
  | empty
  /-- Partial(n). -/
  | partly (n : Nat)
deriving DecidableEq, Repr

/-- The state a tail length names once the block is initialized (R16). -/
def StreamState.ofTailLength (n : Nat) : StreamState := if n = 0 then .empty else .partly n

/-- The streaming state of the block (43_streaming.md R75). -/
def streamState (b : Block) : StreamState :=
  if b.initd then .ofTailLength b.ntail else .uninit

/-- The 128-bit tag as a number, word 1 the low half (44_finalization.md R91). -/
def tag128Value (b : Block) : BitVec 128 := b.tag1 ++ b.tag0

/-- The 128-bit tag as bytes (44_finalization.md R91, 20_memory.md R41). -/
def tag128Bytes (b : Block) : List Byte := bytesLe b.tag0 ++ bytesLe b.tag1

end Sys2Proof.Machine
end

