-- ==== Sys2Proof/Machine/Operands.lean ====
section
/-! DEFINITION. Operand forms: the span of DIN bytes a WRITE appends (20_memory.md R39), and the bytes of a register on a
byte-addressed bus (20_memory.md R42). -/

namespace Sys2Proof.Machine

/-- The span of WRITE N: bytes 0 to N-1 of DIN, byte j in bits 8j+7:8j (R39, 43_streaming.md R77). -/
def dinSpan (din : Word) (n : BitVec 4) : List Byte := (bytesLe din).take n.toNat

/-- The bytes of a register value on the bus, the one at the lowest address first: the byte at offset j is bits 8j+7:8j
in the order `little` and bits 63-8j:56-8j in the order `big` (R42). R42 gives DIN's lanes; the other registers take the
same order (log 10, DEDUCED). -/
def busBytes (order : BusOrder) (v : Word) : List Byte :=
  match order with
  | .little => bytesLe v
  | .big => (bytesLe v).reverse

/-- The register value that eight bytes at rising addresses carry (R42). -/
def busWord (order : BusOrder) (bytes : List Byte) : Word :=
  match order with
  | .little => le64 bytes
  | .big => le64 bytes.reverse

end Sys2Proof.Machine
end

