-- ==== Sys2Proof/Machine/Ops.lean ====
section
/-! DEFINITION. The shared operations: reading and writing the host registers, the error action, reset, appending a span
to the stream, starting an instance and writing its tags. -/

namespace Sys2Proof.Machine

/-! ### Updates of the state -/

def State.setBlock (s : State) (b : Block) : State := { s with block := b }

def State.setPending (s : State) (es : List HostEvent) : State := { s with host := { s.host with pending := es } }

/-- Return 64 bits to the host (45_host_port.md R97). -/
def State.returnData (s : State) (v : Word) : State := { s with host := { s.host with readData := some v } }

/-! ### Host registers -/

/-- PortRead of 45_host_port.md R97: CMD and the reserved index read 0, STATUS is assembled now. -/
def readReg (r : PortReg) (b : Block) : Word :=
  match r with
  | .cmd => 0
  | .din => b.din
  | .key0 => b.key0
  | .key1 => b.key1
  | .tag0 => b.tag0
  | .tag1 => b.tag1
  | .status => statusWord b
  | .reserved7 => 0

/-- A write of a register that only stores (45_host_port.md R98): DIN, KEY0 and KEY1 take the value, and a write to a
read-only or reserved index changes nothing (R100). CMD stores nothing (10_state.md R25). -/
def storeReg (r : PortReg) (v : Word) (b : Block) : Block :=
  match r with
  | .cmd => b
  | .din => { b with din := v }
  | .key0 => { b with key0 := v }
  | .key1 => { b with key1 := v }
  | .tag0 => b
  | .tag1 => b
  | .status => b
  | .reserved7 => b

/-! ### The error action, and reset -/

/-- raise Error(code), the block's one exceptional event (60_exceptions.md R108). It is sticky: the first code stays
(R109). Nothing is saved and control goes nowhere, so there is no return from it. -/
def raiseError (e : ErrorCode) (b : Block) : Block :=
  if b.err then b else { b with err := true, ecode := e.value }

/-- A command that needs a key: before the first accepted INIT it is rejected with code 3 (70_reset_and_hazards.md
R120, the second check of 45_host_port.md R99). -/
def whenInitialized (k : Block → Block) (b : Block) : Block :=
  if b.initd then k b else raiseError .notInitialized b

/-- The reset event on the block (70_reset_and_hazards.md R119). -/
def resetBlock (_b : Block) : Block := .reset

/-! ### The stream -/

/-- Step 2 of ABSORB (43_streaming.md R76): compress consecutive 8-byte chunks while 8 bytes remain, and give back the
0 to 7 bytes left over. -/
def absorbChunks (c : Nat) : HashState → List Byte → HashState × List Byte
  | v, b0 :: b1 :: b2 :: b3 :: b4 :: b5 :: b6 :: b7 :: rest =>
    absorbChunks c (compress v (le64 [b0, b1, b2, b3, b4, b5, b6, b7]) c) rest
  | v, rest => (v, rest)

/-- How many bytes of a span step 1 of ABSORB moves into a non-empty tail (43_streaming.md R76). -/
def fillCount (tail s : List Byte) : Nat :=
  if tail.length = 0 then 0 else min (8 - tail.length) s.length

/-- The HashState and tail that step 1 of ABSORB leaves: a tail that reaches 8 bytes is compressed and emptied.
On a tail of more than 7 bytes, which no run reaches (10_state.md R16), it is the same expression (log 7). -/
def fillTail (c : Nat) (v : HashState) (tail s : List Byte) : HashState × List Byte :=
  let filled := tail ++ s.take (fillCount tail s)
  if filled.length = 8 then (compress v (le64 filled) c, []) else (v, filled)

/-- ABSORB(s) of 43_streaming.md R76, for a span of any length: fill the tail, compress whole chunks, keep the rest as
the tail (90_conflicts.md C5), and count the bytes modulo 2^64 (R78). -/
def absorb (b : Block) (s : List Byte) : Block :=
  let c := b.var.cRounds
  let filled := fillTail c b.v b.tail s
  let chunked := absorbChunks c filled.1 (s.drop (fillCount b.tail s))
  { b with v := chunked.1, tail := filled.2 ++ chunked.2, len := b.len + BitVec.ofNat 64 s.length }

/-- Appending one byte, the loop body of the byte-serial form (43_streaming.md R79), which leaves LEN to the end. -/
def appendByte (b : Block) (x : Byte) : Block :=
  if (b.tail ++ [x]).length = 8 then
    { b with v := compress b.v (le64 (b.tail ++ [x])) b.var.cRounds, tail := [] }
  else { b with tail := b.tail ++ [x] }

/-- The byte-serial form of ABSORB (43_streaming.md R79). -/
def absorbSerial (b : Block) (s : List Byte) : Block :=
  let b' := s.foldl appendByte b
  { b' with len := b'.len + BitVec.ofNat 64 s.length }

/-! ### An instance's beginning and its tags -/

/-- The effect of an accepted INIT (42_initialization.md R71): a new instance, whatever came before (R72). -/
def startInstance (algo : Tag128Algo) (w : TagWidth) (var : Variant) (b : Block) : Block :=
  { b with
    v := initState algo b.key0 b.key1 w
    tail := []
    len := 0
    w := w
    var := var
    initd := true
    err := false
    ecode := 0
    tv := false
    tag0 := 0
    tag1 := 0 }

/-- The state s2 that finalization starts from, a copy (44_finalization.md R86). -/
def finalState (b : Block) : HashState := compress b.v (padBlock b.tail b.len) b.var.cRounds

/-- The effect of an accepted FINISH (44_finalization.md R92): it writes TAG0, TAG1 and TV only (R93). -/
def writeTags (algo : Tag128Algo) (b : Block) : Block :=
  let tags := finalizeTags algo b.w (finalState b) b.var.dRounds
  { b with tag0 := tags.1, tag1 := tags.2, tv := true }

/-! ### The host's next event -/

/-- Take the oldest waiting event (20_memory.md R45: one at a time, in the order they reach the port). -/
def nextEvent (s : State) : Option (HostEvent × State) :=
  match s.host.pending with
  | [] => none
  | e :: rest => some (e, s.setPending rest)

/-- The event that carries an encoded form to the block: a command word is the data of a write to CMD
(30_encoding.md R50). -/
def eventOf : Code → HostEvent
  | .port desc data => .port desc data
  | .command v => .port (wrDescriptor .cmd) v

end Sys2Proof.Machine
end

