-- ==== Sys2Proof/Machine/Bus.lean ====
section
/-! DEFINITION. The bridge of a platform that maps the port on a byte-addressed bus (20_memory.md R36, R42). It turns an
access into one port transaction, or refuses it by name. -/

namespace Sys2Proof.Machine

/-- The register an access names: exactly 8 bytes, 8-byte aligned, at BASE + 8*i (R36). Anything else at the block is
refused, and so is an access outside its 64 bytes (R37; log 9). Addresses are numbers that do not wrap (log 12). Where BASE
is no multiple of 8, an aligned access would straddle two registers, which the spec does not speak of: every access to
such a block is refused (log 14, DESIGN CHOICE). -/
def busTarget (base addr size : Nat) : Except Refusal PortReg :=
  if size = 8 ∧ addr % 8 = 0 ∧ base ≤ addr ∧ (addr - base) % 8 = 0 ∧ addr < base + 64 then
    .ok (.ofIndex (BitVec.ofNat 3 ((addr - base) / 8)))
  else if addr + size ≤ base ∨ base + 64 ≤ addr then .error .busAddressOutsideBlock
  else .error .busAccessUndefined

/-- The encoded port transaction of a host event, the bridge's part included; none is a reset event. -/
def transactionOf (p : Params) : HostEvent → Except Refusal (Option Code)
  | .port desc data => .ok (some (.port desc data))
  | .busRead addr size => (busTarget p.base addr size).map fun r => some (.port (rdDescriptor r) 0)
  | .busWrite addr bytes =>
    (busTarget p.base addr bytes.length).map fun r => some (.port (wrDescriptor r) (busWord p.busOrder bytes))
  | .reset => .ok none

/-- The bytes a bus read returns, in address order: the last read's value in the bus's byte order (R42). -/
def State.busReadBytes (s : State) : Option (List Byte) := s.host.readData.map (busBytes s.params.busOrder)

end Sys2Proof.Machine
end

