-- ==== Sys2Proof/Machine/Command.lean ====
section
/-! DEFINITION. The meanings of the commands INIT, WRITE and FINISH (42_initialization.md R71; 43_streaming.md R77;
44_finalization.md R92). A reserved field is checked before the block's state (60_exceptions.md R107). -/

namespace Sys2Proof.Machine

/-- INIT(W, VAR) of 42_initialization.md R71: never code 3; VAR 2 and 3 are code 2. -/
def execInit (w : TagWidth) (var : BitVec 2) (s : State) : Host.Outcome State Fault Refusal :=
  match Variant.ofCode var with
  | some x => .next (s.setBlock (startInstance s.params.tag128Algo w x s.block))
  | none => .next (s.setBlock (raiseError .reservedField s.block))

/-- WRITE(N) of 43_streaming.md R77: N from 9 to 15 is code 2, and UNINIT is code 3. -/
def execWrite (n : BitVec 4) (s : State) : Host.Outcome State Fault Refusal :=
  if 8 < n.toNat then .next (s.setBlock (raiseError .reservedField s.block))
  else .next (s.setBlock (whenInitialized (fun b => absorb b (dinSpan b.din n)) s.block))

/-- FINISH of 44_finalization.md R92: UNINIT is code 3. -/
def execFinish (s : State) : Host.Outcome State Fault Refusal :=
  .next (s.setBlock (whenInitialized (writeTags s.params.tag128Algo) s.block))

end Sys2Proof.Machine
end

