-- ==== Sys2Proof/Machine/Port.lean ====
section
/-! DEFINITION. The meanings of the port transactions RD and WR, and command dispatch (45_host_port.md R97 to R99). -/

namespace Sys2Proof.Machine

/-- Dispatch(v) of 45_host_port.md R99: a reserved word records its code, and an accepted command executes whole. Its
check that the block is initialized stands in the meanings of WRITE and FINISH, after the field checks (R107). -/
def dispatchCommand (v : Word) (s : State) : Host.Outcome State Fault Refusal :=
  match decodeCommand v with
  | .error e => .next (s.setBlock (raiseError (.ofReserved e) s.block))
  | .ok (.init w var) => execInit w var s
  | .ok (.write n) => execWrite n s
  | .ok .finish => execFinish s

/-- RD of 45_host_port.md R97: the value goes to the host, and the block does not change. -/
def execRd (r : PortReg) (s : State) : Host.Outcome State Fault Refusal :=
  .next (s.returnData (readReg r s.block))

/-- WR of 45_host_port.md R98: a write to CMD issues a command, and any other write only stores or is ignored. -/
def execWr (r : PortReg) (v : Word) (s : State) : Host.Outcome State Fault Refusal :=
  match r with
  | .cmd => dispatchCommand v s
  | .din => .next (s.setBlock (storeReg .din v s.block))
  | .key0 => .next (s.setBlock (storeReg .key0 v s.block))
  | .key1 => .next (s.setBlock (storeReg .key1 v s.block))
  | .tag0 => .next (s.setBlock (storeReg .tag0 v s.block))
  | .tag1 => .next (s.setBlock (storeReg .tag1 v s.block))
  | .status => .next (s.setBlock (storeReg .status v s.block))
  | .reserved7 => .next (s.setBlock (storeReg .reserved7 v s.block))

end Sys2Proof.Machine
end

