-- ==== Sys2Proof/Machine/Dispatch.lean ====
section
/-! DEFINITION. The meaning of every instruction, one arm per constructor. -/

namespace Sys2Proof.Machine

def exec (i : Instr) (s : State) : Host.Outcome State Fault Refusal :=
  match i with
  | .rd r => Sys2Proof.Machine.execRd r s
  | .wr r v => Sys2Proof.Machine.execWr r v s
  | .init w var => Sys2Proof.Machine.execInit w var s
  | .write n => Sys2Proof.Machine.execWrite n s
  | .finish => Sys2Proof.Machine.execFinish s

end Sys2Proof.Machine
end

