-- ==== Sys2Proof/Machine/Perform.lean ====
section
/-! DEFINITION. One host event takes place: a port transaction is decoded and executed whole (45_host_port.md R103), and
a reset event resets the block (70_reset_and_hazards.md R119). -/

namespace Sys2Proof.Machine

/-- Decode a port transaction and run it. A port descriptor always decodes (30_encoding.md R49); a command word is
only ever the data of a write to CMD (R50). -/
def runCode (c : Code) (s : State) : Host.Outcome State Fault Refusal :=
  match c with
  | .port desc data => exec (decodePort desc data) s
  | .command v => exec (.wr .cmd v) s

/-- One event, on the state from which it has been taken. Reset touches the block alone (log 8). -/
def perform (e : HostEvent) (s : State) : Host.Outcome State Fault Refusal :=
  match transactionOf s.params e with
  | .ok (some c) => runCode c s
  | .ok none => .next (s.setBlock (resetBlock s.block))
  | .error r => .refused r

/-- Perform the oldest waiting event. With none, the block takes no step of its own and nothing changes
(45_host_port.md R104; log 2). -/
def performNext (s : State) : Host.Outcome State Fault Refusal :=
  match nextEvent s with
  | none => .next s
  | some (e, s') => perform e s'

end Sys2Proof.Machine
end

