-- ==== Sys2Proof/Machine/Step.lean ====
section
/-! DEFINITION. One step of the machine: the oldest host event that waits, whole (20_memory.md R45, 45_host_port.md
R103). -/

namespace Sys2Proof.Machine

def step (s : State) : Host.Outcome State Fault Refusal := performNext s

/-- The state with the instruction of a table word as its next host event: a port row is that transaction, and a command
row is the write to CMD that carries it (log 1, 11). -/
def State.withFetchWord (s : State) (nbits w : Nat) : State :=
  s.setPending (eventOf (tableCode nbits w) :: s.host.pending)

end Sys2Proof.Machine
end

