-- ==== Sys2Proof/Machine/Pseudo.lean ====
section
/-! DEFINITION. The assembler's transactions, command mnemonics and pseudo-instructions (30_encoding.md R60, R61), each
as the host events it expands to. -/

namespace Sys2Proof.Machine

/-- `RD <reg>` (R60). -/
def asmRd (r : PortReg) : HostEvent := .port (rdDescriptor r) 0

/-- `WR <reg>, <imm64>` (R60). -/
def asmWr (r : PortReg) (v : Word) : HostEvent := .port (wrDescriptor r) v

/-- `INIT.<24|13>.<64|128>`, `WRITE <n>` and `FINISH` (R60): the write of their command word to CMD. -/
def asmCommand (c : Command) : HostEvent := asmWr .cmd (encodeCommand c)

def asmInit (x : Variant) (w : TagWidth) : HostEvent := asmCommand (.init w x.code)

def asmWrite (n : Nat) : HostEvent := asmCommand (.write (BitVec.ofNat 4 n))

def asmFinish : HostEvent := asmCommand .finish

/-- `SETKEY k0, k1` (R61). -/
def pseudoSetkey (k0 k1 : Word) : List HostEvent := [asmWr .key0 k0, asmWr .key1 k1]

/-- One chunk of ABSORB: `WR DIN, le64(ch)` then `WRITE len(ch)` (R61). -/
def pseudoChunk (ch : List Byte) : List HostEvent := [asmWr .din (le64 ch), asmWrite ch.length]

/-- The chunks of `ABSORB [b0, ..., bL-1]` with L at least 1: 8 bytes each except possibly the last, which has 1 to 8
(R61). -/
def pseudoChunks : List Byte → List HostEvent
  | b0 :: b1 :: b2 :: b3 :: b4 :: b5 :: b6 :: b7 :: rest =>
    pseudoChunk [b0, b1, b2, b3, b4, b5, b6, b7] ++ pseudoChunks rest
  | [] => []
  | short => pseudoChunk short

/-- `ABSORB [bytes]`; an empty span is `WRITE 0` (R61). -/
def pseudoAbsorb (s : List Byte) : List HostEvent :=
  match s with
  | [] => [asmWrite 0]
  | b :: bs => pseudoChunks (b :: bs)

/-- `RDTAG128` (R61). -/
def pseudoRdtag128 : List HostEvent := [asmRd .tag0, asmRd .tag1]

/-- `HASH <var>.<w> k0, k1, [bytes]` (R61). -/
def pseudoHash (x : Variant) (w : TagWidth) (k0 k1 : Word) (s : List Byte) : List HostEvent :=
  pseudoSetkey k0 k1 ++ [asmInit x w] ++ pseudoAbsorb s ++ [asmFinish]
    ++ match w with
      | .tag64 => [asmRd .tag0]
      | .tag128 => pseudoRdtag128

/-- The key words of a key given as 16 bytes, the convention of a host that holds bytes
(20_memory.md R40, which the spec marks as general knowledge). -/
def keyWordsOfBytes (key : List Byte) : Word × Word := (le64 (key.take 8), le64 ((key.drop 8).take 8))

end Sys2Proof.Machine
end

