-- ==== Sys2Proof/Safety.lean ====
section
/-! DEFINITION. What statements are said in: the invariants of the block (10_state.md R16, R18, R22, R23, R28, R32), the
byte stream a state stands for, the SipHash tag of a stream, and the runs a host may trust. -/

namespace Sys2Proof.Machine

/-- What every reachable state of the block satisfies. The field widths are the types'; these are the relations. -/
structure Block.Inv (b : Block) : Prop where
  /-- 0 ≤ NTAIL ≤ 7 (10_state.md R16, R32 (a)). -/
  tail_short : b.tail.length ≤ 7
  /-- ECODE is 0 to 3 (R29). -/
  ecode_legal : b.ecode.toNat ≤ 3
  /-- ECODE is 0 when ERR = 0 (R22), and a recorded error has a code. -/
  ecode_zero_iff : b.ecode = 0 ↔ b.err = false
  /-- A valid tag belongs to an initialized instance (R23). -/
  tv_initd : b.tv = true → b.initd = true
  /-- Without a valid tag both TAG registers read 0 (70_reset_and_hazards.md R125). -/
  tags_zero : b.tv = false → b.tag0 = 0 ∧ b.tag1 = 0
  /-- In 64-bit mode TAG1 is 0 (R28). -/
  tag1_zero : b.w = .tag64 → b.tag1 = 0
  /-- Before the first accepted INIT the instance state still holds its reset values (70_reset_and_hazards.md R120). -/
  uninit_reset : b.initd = false → b.v = ⟨0, 0, 0, 0⟩ ∧ b.tail = [] ∧ b.len = 0 ∧ b.var = .sip24 ∧ b.w = .tag64

/-- Block i of a stream: its bytes 8i to 8i+7, little-endian (20_memory.md R38). -/
def streamBlock (σ : List Byte) (i : Nat) : Word := le64 ((σ.drop (8 * i)).take 8)

/-- The fold of 10_state.md R32 (c): Compress over the stream's whole blocks, in stream order. -/
def streamFold (c : Nat) (v : HashState) (σ : List Byte) : HashState :=
  (List.range (σ.length / 8)).foldl (fun v i => compress v (streamBlock σ i) c) v

/-- The stream's last n mod 8 bytes (R32 (d)). -/
def streamTail (σ : List Byte) : List Byte := σ.drop (8 * (σ.length / 8))

/-- The block stands in the stream σ of an instance keyed with k0 and k1: R32 (b), (c) and (d). -/
structure Represents (algo : Tag128Algo) (k0 k1 : Word) (σ : List Byte) (b : Block) : Prop where
  initd : b.initd = true
  len : b.len = BitVec.ofNat 64 σ.length
  v : b.v = streamFold b.var.cRounds (initState algo k0 k1 b.w) σ
  tail : b.tail = streamTail σ

/-- R32 (b) to (d) for some key and stream, whenever an instance runs. -/
def State.StreamInv (s : State) : Prop :=
  s.block.initd = true → ∃ k0 k1 σ, Represents s.params.tag128Algo k0 k1 σ s.block

/-- The tag words of a whole stream under a key: the published shape of SipHash, said without the streaming buffer. -/
def sipHashTags (algo : Tag128Algo) (x : Variant) (w : TagWidth) (k0 k1 : Word) (σ : List Byte) : Word × Word :=
  let s1 := streamFold x.cRounds (initState algo k0 k1 w) σ
  let s2 := compress s1 (padBlock (streamTail σ) (BitVec.ofNat 64 σ.length)) x.cRounds
  finalizeTags algo w s2 x.dRounds

/-- No command of this instance was rejected (60_exceptions.md R109, R110). -/
def State.NoReject (s : State) : Prop := s.block.err = false

/-- A read of a TAG register yields a tag (70_reset_and_hazards.md R125): a claim about a tag takes this as a premise. -/
def State.TagValid (s : State) : Prop := s.block.tv = true

/-! ### Sequences of steps and instructions, and what an event carries -/

/-- `k` steps, stopping at the first that gives no next state: a run of a host program is its transactions, applied one
by one (45_host_port.md R104). -/
def runSteps : Nat → State → Host.Outcome State Fault Refusal
  | 0, s => .next s
  | k + 1, s =>
    match step s with
    | .next t => runSteps k t
    | .fault r => .fault r
    | .refused r => .refused r

/-- Instructions one after the other, stopping at the first that gives no next state: the serial order of whole
transactions (20_memory.md R46). -/
def execAll : List Instr → State → Host.Outcome State Fault Refusal
  | [], s => .next s
  | i :: is, s =>
    match exec i s with
    | .next t => execAll is t
    | .fault r => .fault r
    | .refused r => .refused r

/-- A write to CMD stands for the command its word decodes to, if it decodes (45_host_port.md R99). -/
def resolveCommand (i : Instr) : Instr :=
  match i with
  | .wr .cmd v =>
    match decodeCommand v with
    | .ok c => c.toInstr
    | .error _ => .wr .cmd v
  | i => i

/-- The instruction a host event carries, a command word resolved; none for reset and for a refused bus access. -/
def eventInstr (p : Params) (e : HostEvent) : Option Instr :=
  match transactionOf p e with
  | .ok (some (.port desc data)) => some (resolveCommand (decodePort desc data))
  | .ok (some (.command v)) => some (resolveCommand (.wr .cmd v))
  | .ok none => none
  | .error _ => none

/-- The bytes of several WRITEs, each given by its DIN value and byte count, in stream order (43_streaming.md R82). -/
def writtenBytes (ws : List (Word × BitVec 4)) : List Byte := (ws.map fun w => dinSpan w.1 w.2).flatten

/-- The transactions that append them: `WR DIN, d` then `WRITE n` for each (30_encoding.md R61). -/
def writeInstrs (ws : List (Word × BitVec 4)) : List Instr :=
  (ws.map fun w => [Instr.wr .din w.1, Instr.write w.2]).flatten

/-- An instruction that is neither an accepted INIT nor an accepted WRITE (44_finalization.md R93). -/
def leavesStream (i : Instr) : Bool :=
  match resolveCommand i with
  | .rd _ => true
  | .wr _ _ => true
  | .init _ var => 2 ≤ var.toNat
  | .write n => 8 < n.toNat
  | .finish => true

/-! ### Rejection, from the causes of 60_exceptions.md R106 and not from the decoder -/

/-- The 14 command words that are not reserved, as 30_encoding.md R60 and the opcode table list them. -/
def legalCommandWords : List Word :=
  [0x01, 0x11, 0x21, 0x31, 0x02, 0x12, 0x22, 0x32, 0x42, 0x52, 0x62, 0x72, 0x82, 0x03]

/-- The code with which a command word is rejected: the lowest-numbered cause that holds (60_exceptions.md R106, R107). -/
def rejectionCode (v : Word) (initd : Bool) : Option ErrorCode :=
  if opField v ∉ [0x1, 0x2, 0x3] then some .reservedOpcode
  else if v ∉ legalCommandWords then some .reservedField
  else if opField v ∈ [0x2, 0x3] ∧ initd = false then some .notInitialized
  else none

end Sys2Proof.Machine
end

