-- ==== Sys2Proof/Certificates/Slice0/Obligations.lean ====
section
/-! DEFINITION. The statements about the SipHash core, from the numbered rules of the spec. -/

open Sys2Proof Sys2Proof.Machine

/-! ### Encoding (30_encoding.md) -/

/-- Decoding the encoding of a well-formed instruction gives it back, operand for operand (R49, R53, R55, R56). -/
def Obligations.DecodeOfEncode : Prop :=
  ∀ i : Instr, WellFormed i → decode (encode i) = .ok i

/-- A command word decodes to a command exactly when it is that command's encoding and the command is well-formed, so no
bit of a word is dropped (R52, R57). -/
def Obligations.DecodedWordIsTheEncoding : Prop :=
  ∀ (v : Word) (c : Command), decodeCommand v = .ok c ↔ (WellFormed c.toInstr ∧ v = encodeCommand c)

/-- R58: a reserved opcode is Reserved(1), any other word outside the 14 legal ones is Reserved(2), the 14 are accepted,
a reserved command changes nothing but ERR and ECODE (code 1 or 2), and every port descriptor is legal. -/
def Obligations.ReservedWordsAreRejected : Prop :=
  ∀ (s : State) (v : Word),
    (decodeCommand v = .error .opcode ↔ opField v ∉ [0x1, 0x2, 0x3]) ∧
    (decodeCommand v = .error .field ↔ opField v ∈ [0x1, 0x2, 0x3] ∧ v ∉ legalCommandWords) ∧
    ((∃ c, decodeCommand v = .ok c) ↔ v ∈ legalCommandWords) ∧
    (v ∉ legalCommandWords → exec (.wr .cmd v) s = .next { s with block := { s.block with
      err := true
      ecode := if s.block.err then s.block.ecode else if opField v ∈ [0x1, 0x2, 0x3] then 2 else 1 } }) ∧
    (∀ desc, ∃ i, decode (.port desc v) = .ok i)

/-- A few encodings written out from the formats of R49, R53, R55, R56 and the table of R60. -/
def Obligations.SampleEncodingsDecode : Prop :=
  decode (.port 0b0110 0) = .ok (.rd .status) ∧
  decode (.port 0b1010 0x0706050403020100) = .ok (.wr .key0 0x0706050403020100) ∧
  decode (.command 0b00110001) = .ok (.init .tag128 1) ∧
  decode (.command 0b01010010) = .ok (.write 5) ∧
  decode (.command 0b00000011) = .ok .finish

/-! ### A step (20_memory.md R45, 45_host_port.md R99, R103, R104) -/

/-- A waiting port transaction decodes to an instruction, and the step is that instruction's, on the state the
transaction has been taken from. -/
def Obligations.StepRunsDecodedTransaction : Prop :=
  ∀ (s : State) (desc : BitVec 4) (data : Word) (rest : List HostEvent),
    s.host.pending = .port desc data :: rest →
    ∃ i, decode (.port desc data) = .ok i ∧ WellFormed i ∧ step s = exec i (s.setPending rest)

/-- The event that carries the encoding of a well-formed instruction makes the step run it: a port transaction is run as
it is, and a command through the write of its word to CMD. -/
def Obligations.StepRunsEncodedInstruction : Prop :=
  ∀ (s : State) (i : Instr) (rest : List HostEvent),
    WellFormed i → s.host.pending = eventOf (encode i) :: rest → step s = exec i (s.setPending rest)

/-- With no host event waiting the block takes no step of its own: nothing changes. (That the model then answers the
same state, and does not stop, is its choice: log 2.) -/
def Obligations.IdleStepChangesNothing : Prop :=
  ∀ s : State, s.host.pending = [] → step s = .next s

/-- R99: the decoder's reserved codes come first, then the check that the block is initialized, then the command. -/
def Obligations.DispatchFollowsItsRule : Prop :=
  ∀ (s : State) (v : Word),
    (decodeCommand v = .error .opcode →
      exec (.wr .cmd v) s = .next (s.setBlock (raiseError .reservedOpcode s.block))) ∧
    (decodeCommand v = .error .field →
      exec (.wr .cmd v) s = .next (s.setBlock (raiseError .reservedField s.block))) ∧
    (∀ c, decodeCommand v = .ok c → opField v ∈ [0x2, 0x3] → s.block.initd = false →
      exec (.wr .cmd v) s = .next (s.setBlock (raiseError .notInitialized s.block))) ∧
    (∀ c, decodeCommand v = .ok c → (opField v = 0x1 ∨ s.block.initd = true) →
      exec (.wr .cmd v) s = exec c.toInstr s)

/-- Every instruction completes on every state, and takes nothing from the host's queue and no parameter with it. -/
def Obligations.EveryInstructionCompletes : Prop :=
  ∀ (i : Instr) (s : State), ∃ t, exec i s = .next t ∧ t.params = s.params ∧ t.host.pending = s.host.pending

/-- A step takes exactly the oldest event, keeps the parameters, and stops only for a bus access that is no port
transaction. -/
def Obligations.StepTakesOneEvent : Prop :=
  ∀ (s : State) (e : HostEvent) (rest : List HostEvent), s.host.pending = e :: rest →
    (∀ t, step s = .next t → t.host.pending = rest ∧ t.params = s.params) ∧
    (∀ r, step s ≠ .fault r) ∧
    (∀ r, step s = .refused r → (∃ addr size, e = .busRead addr size) ∨ (∃ addr bytes, e = .busWrite addr bytes))

/-! ### Reset (10_state.md R33) and the invariants (R32) -/

/-- R33: the reset event, and the machine's first state, leave every element of the block at its reset value; STATUS then
reads 0 and the block is in UNINIT. -/
def Obligations.ResetLeavesResetValues : Prop :=
  (∀ (s : State) (rest : List HostEvent), s.host.pending = .reset :: rest →
    ∃ t, step s = .next t ∧ t.block =
      { v := ⟨0, 0, 0, 0⟩, tail := [], len := 0, var := .sip24, w := .tag64, initd := false, err := false, ecode := 0,
        tv := false, din := 0, key0 := 0, key1 := 0, tag0 := 0, tag1 := 0 }) ∧
  State.reset.block =
    { v := ⟨0, 0, 0, 0⟩, tail := [], len := 0, var := .sip24, w := .tag64, initd := false, err := false, ecode := 0,
      tv := false, din := 0, key0 := 0, key1 := 0, tag0 := 0, tag1 := 0 } ∧
  readReg .status State.reset.block = 0 ∧ streamState State.reset.block = .uninit

/-- The invariants hold right after reset. -/
def Obligations.ResetMeetsInvariants : Prop :=
  State.reset.block.Inv ∧ State.reset.StreamInv

/-- Every step keeps the block's invariant: NTAIL, ECODE, TV and the TAG registers stay as 10_state.md says. -/
def Obligations.StepKeepsBlockInvariant : Prop :=
  ∀ s t : State, s.block.Inv → step s = .next t → t.block.Inv

/-- Every step keeps R32 (b) to (d): LEN, V0..V3 and TAIL are those of some stream under some key. -/
def Obligations.StepKeepsStreamInvariant : Prop :=
  ∀ s t : State, s.StreamInv → step s = .next t → t.StreamInv

/-! ### Port registers (10_state.md R24 to R31, 45_host_port.md R97 to R102) -/

/-- R97: a read returns the register's value to the host and changes nothing else. -/
def Obligations.RdReturnsRegister : Prop :=
  ∀ (s : State) (r : PortReg),
    exec (.rd r) s = .next { s with host := { s.host with readData := some (match r with
      | .cmd => 0
      | .din => s.block.din
      | .key0 => s.block.key0
      | .key1 => s.block.key1
      | .tag0 => s.block.tag0
      | .tag1 => s.block.tag1
      | .status => statusWord s.block
      | .reserved7 => 0) } }

/-- R29: every field of STATUS stands at its bits, the reserved bits read 0, ECODE and NTAIL keep their ranges, and a
host write to STATUS is ignored. -/
def Obligations.StatusHoldsEveryField : Prop :=
  ∀ (s : State) (x : Word), s.block.Inv →
    exec (.wr .status x) s = .next s ∧
    ∃ v, exec (.rd .status) s = .next (s.returnData v) ∧
      v.getLsbD 0 = s.block.initd ∧ v.getLsbD 1 = s.block.err ∧ v.getLsbD 2 = s.block.tv ∧ v.getLsbD 3 = false ∧
      v.extractLsb' 4 4 = s.block.ecode ∧ s.block.ecode.toNat ≤ 3 ∧
      (v.extractLsb' 8 3).toNat = s.block.tail.length ∧
      (v.getLsbD 11 = true ↔ s.block.w = .tag128) ∧
      (v.extractLsb' 12 2 = 0 ↔ s.block.var = .sip24) ∧ (v.extractLsb' 12 2 = 1 ↔ s.block.var = .sip13) ∧
      v.extractLsb' 14 50 = 0

/-- R98 and R100: DIN, KEY0 and KEY1 take the value and nothing else changes; a write to a read-only or reserved index
changes nothing; a write to CMD dispatches the value as a command. -/
def Obligations.WrFollowsItsRule : Prop :=
  ∀ (s : State) (x : Word),
    exec (.wr .din x) s = .next { s with block := { s.block with din := x } } ∧
    exec (.wr .key0 x) s = .next { s with block := { s.block with key0 := x } } ∧
    exec (.wr .key1 x) s = .next { s with block := { s.block with key1 := x } } ∧
    exec (.wr .tag0 x) s = .next s ∧ exec (.wr .tag1 x) s = .next s ∧
    exec (.wr .status x) s = .next s ∧ exec (.wr .reserved7 x) s = .next s ∧
    exec (.wr .cmd x) s = dispatchCommand x s

/-- R102: only the host's own writes and reset change DIN, KEY0 and KEY1. -/
def Obligations.HostRegistersBelongToTheHost : Prop :=
  ∀ (s t : State) (e : HostEvent) (rest : List HostEvent), s.host.pending = e :: rest → step s = .next t → e ≠ .reset →
    ((∀ x, eventInstr s.params e ≠ some (.wr .din x)) → t.block.din = s.block.din) ∧
    ((∀ x, eventInstr s.params e ≠ some (.wr .key0 x)) → t.block.key0 = s.block.key0) ∧
    ((∀ x, eventInstr s.params e ≠ some (.wr .key1 x)) → t.block.key1 = s.block.key1)

/-- R125: TAG0, TAG1 and TV change only at an accepted FINISH, an accepted INIT (the tags to 0) or reset (to 0), so after
a WRITE they still hold the tag of the earlier stream and TV stays; a TAG read while TV = 0 returns 0. -/
def Obligations.TagsChangeOnlyAtFinishInitReset : Prop :=
  (∀ (s t : State) (e : HostEvent) (rest : List HostEvent), s.host.pending = e :: rest → step s = .next t →
    (e ≠ .reset → ¬(eventInstr s.params e = some .finish ∧ s.block.initd = true) →
      (∀ w x, eventInstr s.params e = some (.init w x) → 2 ≤ x.toNat) →
      t.block.tag0 = s.block.tag0 ∧ t.block.tag1 = s.block.tag1 ∧ t.block.tv = s.block.tv) ∧
    ((e = .reset ∨ ∃ w x, eventInstr s.params e = some (.init w x) ∧ x.toNat < 2) →
      t.block.tag0 = 0 ∧ t.block.tag1 = 0 ∧ t.block.tv = false) ∧
    (eventInstr s.params e = some .finish → s.block.initd = true → t.block.tv = true)) ∧
  (∀ s : State, s.block.Inv → s.block.tv = false →
    exec (.rd .tag0) s = .next (s.returnData 0) ∧ exec (.rd .tag1) s = .next (s.returnData 0))

/-- R14: V0..V3 are written only by an accepted INIT, an accepted WRITE that completes a block, and reset; FINISH never
writes them, and no read shows them. -/
def Obligations.HashStateWrittenOnlyByInitWriteReset : Prop :=
  (∀ (s t : State) (e : HostEvent) (rest : List HostEvent), s.block.Inv → s.host.pending = e :: rest → step s = .next t →
    t.block.v ≠ s.block.v →
    e = .reset ∨ (∃ w x, eventInstr s.params e = some (.init w x) ∧ x.toNat < 2) ∨
    (∃ n, eventInstr s.params e = some (.write n) ∧ s.block.initd = true ∧ n.toNat ≤ 8 ∧
      8 ≤ s.block.tail.length + n.toNat)) ∧
  (∀ (b : Block) (v : HashState) (r : PortReg), readReg r { b with v := v } = readReg r b)

/-- R91, R41: the 128-bit tag is TAG1 then TAG0 as a number, and its bytes are those of TAG0 then those of TAG1. -/
def Obligations.Tag128IsTag1AboveTag0 : Prop :=
  ∀ b : Block, tag128Value b = b.tag1 ++ b.tag0 ∧ (tag128Bytes b).length = 16 ∧
    ∀ j, j < 16 → (tag128Bytes b)[j]? = some ((tag128Value b).extractLsb' (8 * j) 8)

/-! ### The byte-addressed bus (20_memory.md R36, R42) -/

/-- R36, with the bytes of a write placed as in R42: where BASE is a multiple of 8, an aligned access of 8 bytes at
BASE + 8*i is one port transaction on index i, and any other access to the block's bytes is refused. That R42's order holds
of every register and not of DIN alone is the model's reading (log 10), and that addresses do not wrap its choice
(log 12). -/
def Obligations.BusAccessIsOnePortTransaction : Prop :=
  ∀ (s : State) (rest : List HostEvent) (i : BitVec 3), s.params.base % 8 = 0 →
    (s.host.pending = .busRead (s.params.base + 8 * i.toNat) 8 :: rest →
      step s = exec (.rd (.ofIndex i)) (s.setPending rest)) ∧
    (∀ bytes : List Byte, bytes.length = 8 →
      s.host.pending = .busWrite (s.params.base + 8 * i.toNat) bytes :: rest →
      step s = exec (.wr (.ofIndex i) (busWord s.params.busOrder bytes)) (s.setPending rest)) ∧
    (∀ addr size, addr < s.params.base + 64 → s.params.base < addr + size → (size ≠ 8 ∨ addr % 8 ≠ 0) →
      s.host.pending = .busRead addr size :: rest → step s = .refused .busAccessUndefined) ∧
    (∀ addr (bytes : List Byte), addr < s.params.base + 64 → s.params.base < addr + bytes.length →
      (bytes.length ≠ 8 ∨ addr % 8 ≠ 0) →
      s.host.pending = .busWrite addr bytes :: rest → step s = .refused .busAccessUndefined)

/-- R42: the byte at offset j is lane j in the order `little` and lane 7-j in the order `big`, for a write, and for the
bytes that a read of register i through the bridge returns. That this holds of every register and not of DIN alone is the
model's reading (log 10). -/
def Obligations.BusOrderPlacesEveryByte : Prop :=
  (∀ (bytes : List Byte) (v : Word) (j : Nat), bytes.length = 8 → j < 8 →
    some ((busWord .little bytes).extractLsb' (8 * j) 8) = bytes[j]? ∧
    some ((busWord .big bytes).extractLsb' (56 - 8 * j) 8) = bytes[j]? ∧
    (busBytes .little v)[j]? = some (v.extractLsb' (8 * j) 8) ∧
    (busBytes .big v)[j]? = some (v.extractLsb' (56 - 8 * j) 8)) ∧
  (∀ (s : State) (rest : List HostEvent) (i : BitVec 3), s.params.base % 8 = 0 →
    s.host.pending = .busRead (s.params.base + 8 * i.toNat) 8 :: rest →
    ∃ t bytes, step s = .next t ∧ t.block = s.block ∧ t.busReadBytes = some bytes ∧ bytes.length = 8 ∧
      ∀ j, j < 8 → bytes[j]? = some (match s.params.busOrder with
        | .little => (readReg (.ofIndex i) s.block).extractLsb' (8 * j) 8
        | .big => (readReg (.ofIndex i) s.block).extractLsb' (56 - 8 * j) 8))

/-! ### The permutation, compression and initialization (40_sipround.md, 41_compression.md, 42_initialization.md) -/

/-- R63: bit i of x moves to bit (i + r) mod 64. -/
def Obligations.RotlMovesEveryBit : Prop :=
  ∀ (x : Word) (r i : Nat), 1 ≤ r → r ≤ 63 → i < 64 → (rotl x r).getLsbD ((i + r) % 64) = x.getLsbD i

/-- R62 with the freedom of R66: the first two lines from the start state, the last two from what those leave. -/
def Obligations.SipRoundIsItsFourLines : Prop :=
  ∀ v0 v1 v2 v3 : Word,
    let a0 := v0 + v1
    let a1 := rotl v1 13 ^^^ a0
    let b2 := v2 + v3
    let b3 := rotl v3 16 ^^^ b2
    let c0 := rotl a0 32 + b3
    let d2 := b2 + a1
    sipRound ⟨v0, v1, v2, v3⟩ = ⟨c0, rotl a1 17 ^^^ d2, rotl d2 32, rotl b3 21 ^^^ c0⟩

/-- R65: SipRound is a bijection, and SipRoundInv its inverse. -/
def Obligations.SipRoundIsAPermutation : Prop :=
  (∀ s : HashState, sipRoundInv (sipRound s) = s) ∧ (∀ s : HashState, sipRound (sipRoundInv s) = s)

/-- R67: m enters v3 before the c rounds and v0 after them; m = 0 still runs them, and the zero state stays. -/
def Obligations.CompressFollowsItsRule : Prop :=
  ∀ (s : HashState) (m : Word) (c : Nat),
    compress s m c =
      { rounds { s with v3 := s.v3 ^^^ m } c with v0 := (rounds { s with v3 := s.v3 ^^^ m } c).v0 ^^^ m } ∧
    rounds s 0 = s ∧ rounds s (c + 1) = rounds (sipRound s) c ∧
    compress s 0 c = rounds s c ∧ compress ⟨0, 0, 0, 0⟩ 0 c = ⟨0, 0, 0, 0⟩

/-- R70: the four constants, and 0xee in v1 under REF in 128-bit mode only (the REF line is one the spec marks as general
knowledge). -/
def Obligations.InitStateFollowsItsRule : Prop :=
  ∀ (algo : Tag128Algo) (k0 k1 : Word) (w : TagWidth),
    initState algo k0 k1 w =
      ⟨k0 ^^^ 0x736f6d6570736575,
       if algo = .ref ∧ w = .tag128 then (k1 ^^^ 0x646f72616e646f6d) ^^^ 0xee else k1 ^^^ 0x646f72616e646f6d,
       k0 ^^^ 0x6c7967656e657261, k1 ^^^ 0x7465646279746573⟩

/-- R71: an accepted INIT gives every element of the instance its value and leaves DIN and the keys alone; VAR 2 and 3
and any reserved bit of the word are code 2; it is never code 3. -/
def Obligations.InitStartsAnInstance : Prop :=
  (∀ (s : State) (w : TagWidth) (x : Variant),
    exec (.init w x.code) s = .next { s with block :=
      { v := initState s.params.tag128Algo s.block.key0 s.block.key1 w, tail := [], len := 0, var := x, w := w,
        initd := true, err := false, ecode := 0, tv := false, din := s.block.din, key0 := s.block.key0,
        key1 := s.block.key1, tag0 := 0, tag1 := 0 } }) ∧
  (∀ (s : State) (w : TagWidth) (var : BitVec 2), 2 ≤ var.toNat →
    exec (.init w var) s = .next (s.setBlock (raiseError .reservedField s.block))) ∧
  (∀ (s : State) (v : Word), opField v = 0x1 → (v.extractLsb' 7 57 ≠ 0 ∨ 2 ≤ (varField v).toNat) →
    exec (.wr .cmd v) s = .next (s.setBlock (raiseError .reservedField s.block)))

/-! ### The stream (20_memory.md R38, R39; 43_streaming.md) -/

/-- R8, R38: le64 puts byte i of up to 8 bytes in bits 8i+7:8i and reads missing bytes as zero, and bytes_le undoes it. -/
def Obligations.Le64IsLittleEndian : Prop :=
  (∀ (s : List Byte) (j : Nat), s.length ≤ 8 → j < 8 → (le64 s).extractLsb' (8 * j) 8 = s.getD j 0) ∧
  (∀ x : Word, (bytesLe x).length = 8 ∧ le64 (bytesLe x) = x)

/-- R79: ABSORB is the byte-serial append. -/
def Obligations.AbsorbIsByteSerial : Prop :=
  ∀ (b : Block) (s : List Byte), b.tail.length ≤ 7 → absorb b s = absorbSerial b s

/-- R81: any split of a span leaves the same state as the whole span, empty pieces included. -/
def Obligations.ChunkingInvariance : Prop :=
  ∀ (b : Block) (spans : List (List Byte)), b.tail.length ≤ 7 →
    spans.foldl absorb b = absorb b spans.flatten

/-- R77 and R80: an accepted WRITE takes the low N lanes of DIN, compresses exactly one block when t + N reaches 8, keeps
the rest as the tail, adds N to LEN, and changes nothing else. -/
def Obligations.WriteCompressesAtMostOneBlock : Prop :=
  ∀ (s : State) (n : BitVec 4), s.block.initd = true → s.block.tail.length ≤ 7 → n.toNat ≤ 8 →
    let t := s.block.tail.length
    let span := (List.range n.toNat).map fun j => s.block.din.extractLsb' (8 * j) 8
    exec (.write n) s = .next { s with block := { s.block with
      v := if 8 ≤ t + n.toNat then compress s.block.v (le64 (s.block.tail ++ span.take (8 - t))) s.block.var.cRounds
        else s.block.v
      tail := if 8 ≤ t + n.toNat then span.drop (8 - t) else s.block.tail ++ span
      len := s.block.len + n.setWidth 64 } }

/-- R78: every accepted WRITE adds N to LEN modulo 2^64, so a sequence of them adds the sum; a rejected WRITE adds
nothing. -/
def Obligations.WriteCountsItsBytes : Prop :=
  (∀ (s : State) (ns : List (BitVec 4)), s.block.initd = true → (∀ n ∈ ns, n.toNat ≤ 8) →
    ∃ t, execAll (ns.map .write) s = .next t ∧
      t.block.len = s.block.len + BitVec.ofNat 64 (ns.map BitVec.toNat).sum) ∧
  (∀ (s : State) (n : BitVec 4), (s.block.initd = false ∨ 8 < n.toNat) →
    ∃ t, exec (.write n) s = .next t ∧ t.block.len = s.block.len)

/-- R83: an accepted WRITE 0 changes nothing, and in UNINIT it is rejected with code 3. -/
def Obligations.ZeroLengthWriteChangesNothing : Prop :=
  ∀ s : State, s.block.tail.length ≤ 7 →
    (s.block.initd = true → exec (.write 0) s = .next s) ∧
    (s.block.initd = false → exec (.write 0) s = .next (s.setBlock (raiseError .notInitialized s.block)))

/-- R84: lanes N to 7 of DIN cannot be told from the state a WRITE leaves, and WRITE leaves DIN as it was. -/
def Obligations.WriteIgnoresUpperLanes : Prop :=
  ∀ (s : State) (n : BitVec 4) (d : Word), n.toNat ≤ 8 →
    (∀ j, j < n.toNat → d.extractLsb' (8 * j) 8 = s.block.din.extractLsb' (8 * j) 8) →
    ∃ t, exec (.write n) s = .next t ∧ t.block.din = s.block.din ∧
      exec (.write n) { s with block := { s.block with din := d } } =
        .next { t with block := { t.block with din := d } }

/-- R75: reset leads to UNINIT, INIT to Empty, an accepted WRITE of N bytes to the state of (t + N) mod 8, with one block
compressed exactly when t + N reaches 8; FINISH, every rejected command and every other event keep the state. -/
def Obligations.StreamStateMachine : Prop :=
  (∀ b : Block, streamState (resetBlock b) = .uninit) ∧
  (∀ (s t : State) (w : TagWidth) (x : Variant), exec (.init w x.code) s = .next t → streamState t.block = .empty) ∧
  (∀ (s t : State) (n : BitVec 4), s.block.initd = true → s.block.tail.length ≤ 7 → n.toNat ≤ 8 →
    exec (.write n) s = .next t →
      streamState t.block = .ofTailLength ((s.block.tail.length + n.toNat) % 8) ∧
      t.block.v = if 8 ≤ s.block.tail.length + n.toNat then
          compress s.block.v (le64 (s.block.tail ++ (dinSpan s.block.din n).take (8 - s.block.tail.length)))
            s.block.var.cRounds
        else s.block.v) ∧
  (∀ s t : State, exec .finish s = .next t → streamState t.block = streamState s.block) ∧
  (∀ (s t : State) (v : Word) (e : ErrorCode), rejectionCode v s.block.initd = some e →
    exec (.wr .cmd v) s = .next t → streamState t.block = streamState s.block) ∧
  (∀ (s t : State) (e : HostEvent) (rest : List HostEvent), s.host.pending = e :: rest → step s = .next t →
    e ≠ .reset → (∀ w x, eventInstr s.params e = some (.init w x) → 2 ≤ x.toNat) →
    (∀ n, eventInstr s.params e = some (.write n) → s.block.initd = false ∨ 8 < n.toNat) →
    streamState t.block = streamState s.block)

/-! ### Finalization (44_finalization.md) -/

/-- R85: byte 7 of the padded block is LEN mod 256, byte j below it is byte j of the tail, or 0 past its end. -/
def Obligations.PadBlockLayout : Prop :=
  ∀ (tail : List Byte) (len : Word), tail.length ≤ 7 →
    (padBlock tail len).extractLsb' 56 8 = len.extractLsb' 0 8 ∧
    ∀ j, j < 7 → (padBlock tail len).extractLsb' (8 * j) 8 = tail.getD j 0

/-- R92: an accepted FINISH writes TAG0, TAG1 and TV only, by the width and TAG128_ALGO; UNINIT is code 3 and a reserved
bit of the word code 2. (The REF values are R90's, which the spec marks as general knowledge.) -/
def Obligations.FinishWritesTheTag : Prop :=
  (∀ s : State, s.block.initd = true →
    let c := s.block.var.cRounds
    let d := s.block.var.dRounds
    let s2 := compress s.block.v (padBlock s.block.tail s.block.len) c
    let pass1 := rounds { s2 with v2 := s2.v2 ^^^ 0xff } d
    let dd := rounds { s2 with v1 := s2.v1 ^^^ 0xdd } d
    let ref1 := rounds { s2 with v2 := s2.v2 ^^^ 0xee } d
    let ref2 := rounds { ref1 with v1 := ref1.v1 ^^^ 0xdd } d
    exec .finish s = .next { s with block := { s.block with
      tag0 := if s.block.w = .tag128 ∧ s.params.tag128Algo = .ref then xor4 ref1 else xor4 pass1
      tag1 := if s.block.w = .tag64 then 0 else if s.params.tag128Algo = .doc then xor4 dd else xor4 ref2
      tv := true } }) ∧
  (∀ s : State, s.block.initd = false →
    exec .finish s = .next (s.setBlock (raiseError .notInitialized s.block))) ∧
  (∀ (s : State) (v : Word), opField v = 0x3 → v.extractLsb' 4 60 ≠ 0 →
    exec (.wr .cmd v) s = .next (s.setBlock (raiseError .reservedField s.block)))

/-- R93: FINISH writes nothing of the stream or the flags but TV, and a second FINISH with no accepted WRITE or INIT in
between writes the same tag, whatever else happens in between. -/
def Obligations.FinishIsRepeatable : Prop :=
  ∀ (s : State) (between : List Instr), s.block.initd = true → (∀ i ∈ between, leavesStream i = true) →
    ∃ t u, exec .finish s = .next t ∧ execAll (between ++ [.finish]) t = .next u ∧
      t.block.v = s.block.v ∧ t.block.tail = s.block.tail ∧ t.block.len = s.block.len ∧ t.block.var = s.block.var ∧
      t.block.w = s.block.w ∧ t.block.initd = s.block.initd ∧ t.block.err = s.block.err ∧
      t.block.ecode = s.block.ecode ∧
      u.block.tag0 = t.block.tag0 ∧ u.block.tag1 = t.block.tag1

/-- R95: under DOC, word 1 of a stream's 128-bit tag is its 64-bit tag. -/
def Obligations.DocWordOneIsThe64BitTag : Prop :=
  ∀ (x : Variant) (k0 k1 : Word) (σ : List Byte),
    (sipHashTags .doc x .tag128 k0 k1 σ).1 = (sipHashTags .doc x .tag64 k0 k1 σ).1

/-- R32, R77: INIT starts the empty stream under the key registers, and an accepted WRITE extends the stream by its span,
keeping the key. -/
def Obligations.WriteExtendsTheStream : Prop :=
  (∀ (s : State) (w : TagWidth) (x : Variant), ∃ t, exec (.init w x.code) s = .next t ∧
    Represents s.params.tag128Algo s.block.key0 s.block.key1 [] t.block) ∧
  (∀ (s : State) (k0 k1 : Word) (σ : List Byte) (n : BitVec 4), n.toNat ≤ 8 →
    Represents s.params.tag128Algo k0 k1 σ s.block →
    ∃ t, exec (.write n) s = .next t ∧
      Represents s.params.tag128Algo k0 k1 (σ ++ dinSpan s.block.din n) t.block)

/-- The block computes SipHash of the stream (R32, R81, R92, R94): whatever stood before, INIT, then any WRITEs of 0 to 8
bytes, then FINISH leave the tag of the concatenated bytes under the key, said without the streaming buffer. Appending
after a FINISH changes nothing of this, since the WRITEs before and after it are one stream. -/
def Obligations.TagIsSipHashOfTheStream : Prop :=
  ∀ (s : State) (w : TagWidth) (x : Variant) (ws₁ ws₂ : List (Word × BitVec 4)),
    (∀ a ∈ ws₁, a.2.toNat ≤ 8) → (∀ a ∈ ws₂, a.2.toNat ≤ 8) →
    ∃ t u, execAll (.init w x.code :: writeInstrs ws₁ ++ [.finish]) s = .next t ∧
      execAll (writeInstrs ws₂ ++ [.finish]) t = .next u ∧
      t.block.tv = true ∧ u.block.tv = true ∧
      (t.block.tag0, t.block.tag1) =
        sipHashTags s.params.tag128Algo x w s.block.key0 s.block.key1 (writtenBytes ws₁) ∧
      (u.block.tag0, u.block.tag1) =
        sipHashTags s.params.tag128Algo x w s.block.key0 s.block.key1 (writtenBytes ws₁ ++ writtenBytes ws₂)

/-- R61: the expansion of the pseudo-instruction ABSORB, run step by step, is ABSORB of the whole span, whatever its
length; DIN is left with its last chunk, and as it was for the empty span. -/
def Obligations.AbsorbPseudoInstruction : Prop :=
  ∀ (s : State) (bytes : List Byte) (rest : List HostEvent), s.block.initd = true → s.block.tail.length ≤ 7 →
    ∃ t, runSteps (pseudoAbsorb bytes).length (s.setPending (pseudoAbsorb bytes ++ rest)) = .next t ∧
      t.host.pending = rest ∧ t.host.readData = s.host.readData ∧ t.params = s.params ∧
      t.block = { absorb s.block bytes with
        din := if bytes = [] then s.block.din else le64 (bytes.drop (8 * ((bytes.length - 1) / 8))) }

/-- R61: the expansion of the pseudo-instruction HASH, run step by step from any state, leaves the SipHash tag of the
bytes under the key, returns its last word to the host, and rejects no command. -/
def Obligations.HashPseudoInstruction : Prop :=
  ∀ (s : State) (x : Variant) (w : TagWidth) (k0 k1 : Word) (bytes : List Byte) (rest : List HostEvent),
    ∃ t, runSteps (pseudoHash x w k0 k1 bytes).length (s.setPending (pseudoHash x w k0 k1 bytes ++ rest)) = .next t ∧
      t.host.pending = rest ∧ t.block.tv = true ∧ t.block.err = false ∧
      (t.block.tag0, t.block.tag1) = sipHashTags s.params.tag128Algo x w k0 k1 bytes ∧
      t.host.readData = some (match w with
        | .tag64 => t.block.tag0
        | .tag128 => t.block.tag1)

/-! ### Errors (60_exceptions.md) -/

/-- R106, R107, R108: a command word is rejected with its lowest-numbered cause, ERR and ECODE are set only if ERR was 0,
and nothing else changes; a word without a cause is executed. -/
def Obligations.RejectionRecordsTheLowestCause : Prop :=
  ∀ (s : State) (v : Word),
    match rejectionCode v s.block.initd with
    | some e => exec (.wr .cmd v) s = .next { s with block := { s.block with
        err := true
        ecode := if s.block.err then s.block.ecode else match e with
          | .reservedOpcode => 1
          | .reservedField => 2
          | .notInitialized => 3 } }
    | none => ∃ c, decodeCommand v = .ok c ∧ exec (.wr .cmd v) s = exec c.toInstr s

/-- R109: ERR and ECODE are sticky, the first error's code staying in place; only an accepted INIT or reset clears
them. -/
def Obligations.ErrorsAreSticky : Prop :=
  ∀ (s t : State) (e : HostEvent) (rest : List HostEvent), s.host.pending = e :: rest → step s = .next t →
    ((e = .reset ∨ ∃ w x, eventInstr s.params e = some (.init w x) ∧ x.toNat < 2) →
      t.block.err = false ∧ t.block.ecode = 0) ∧
    (s.block.err = true → e ≠ .reset → (∀ w x, eventInstr s.params e = some (.init w x) → 2 ≤ x.toNat) →
      t.block.err = true ∧ t.block.ecode = s.block.ecode)

/-- R20: while INITD = 0, WRITE and FINISH are rejected with code 3; an accepted INIT makes INITD 1, reset makes it 0, and
nothing else changes it. -/
def Obligations.UninitRejectsWriteAndFinish : Prop :=
  (∀ s : State, s.block.initd = false →
    exec .finish s = .next (s.setBlock (raiseError .notInitialized s.block)) ∧
    ∀ n : BitVec 4, n.toNat ≤ 8 →
      exec (.write n) s = .next (s.setBlock (raiseError .notInitialized s.block))) ∧
  (∀ (s t : State) (e : HostEvent) (rest : List HostEvent), s.host.pending = e :: rest → step s = .next t →
    (e = .reset → t.block.initd = false) ∧
    ((∃ w x, eventInstr s.params e = some (.init w x) ∧ x.toNat < 2) → t.block.initd = true) ∧
    (e ≠ .reset → (∀ w x, eventInstr s.params e = some (.init w x) → 2 ≤ x.toNat) →
      t.block.initd = s.block.initd))

/-! ### What the host cannot learn -/

/-- R17: no event reads LEN, and only LEN[7:0] reaches a result: two states that agree in all but LEN's upper 56 bits
take steps that agree in the same way. -/
def Obligations.OnlyLowByteOfLenMatters : Prop :=
  ∀ (s t : State) (len : Word), len.extractLsb' 0 8 = s.block.len.extractLsb' 0 8 → step s = .next t →
    ∃ len', len'.extractLsb' 0 8 = t.block.len.extractLsb' 0 8 ∧
      step { s with block := { s.block with len := len } } = .next { t with block := { t.block with len := len' } }

/-- R120: before the first accepted INIT nothing depends on V0..V3, on TAIL but for its length, which STATUS shows, or on
LEN, and INIT and reset overwrite them. -/
def Obligations.UninitHidesHashStateAndLen : Prop :=
  ∀ (s t : State) (v : HashState) (tail : List Byte) (len : Word), s.block.initd = false →
    tail.length = s.block.tail.length → step s = .next t →
    ∃ u, step { s with block := { s.block with v := v, tail := tail, len := len } } = .next u ∧
      u.host = t.host ∧ u.params = t.params ∧
      u.block = { t.block with v := u.block.v, tail := u.block.tail, len := u.block.len } ∧
      u.block.tail.length = t.block.tail.length ∧
      ((t.block.initd = true ∨ ∃ rest, s.host.pending = .reset :: rest) → u.block = t.block)

/-! ### A block whose BASE is no multiple of 8 -/

/-- The model's choice (log 14): where BASE is no multiple of 8, no aligned access is one register's 8 bytes, and every
access to the block's bytes is refused. -/
def Obligations.BusAtUnalignedBaseIsRefused : Prop :=
  ∀ (s : State) (rest : List HostEvent) (addr : Nat), s.params.base % 8 ≠ 0 → addr < s.params.base + 64 →
    (∀ size, s.params.base < addr + size → s.host.pending = .busRead addr size :: rest →
      step s = .refused .busAccessUndefined) ∧
    (∀ bytes : List Byte, s.params.base < addr + bytes.length → s.host.pending = .busWrite addr bytes :: rest →
      step s = .refused .busAccessUndefined)
end

