-- ==== Sys2Proof/Laws/Decode.lean ====
section
/-! SUPPORT. The fields of a command word, the command words and the decoder as arithmetic on numbers, so that a proof
about encodings is left to `omega`. -/

namespace Sys2Proof

theorem opField_eq_iff (v : Word) (k : BitVec 4) : opField v = k ↔ v.toNat % 16 = k.toNat := by
  rw [← BitVec.toNat_inj]; simp [opField, BitVec.extractLsb'_toNat]

theorem toNat_nField (v : Word) : (nField v).toNat = v.toNat / 16 % 16 := by
  simp [nField, BitVec.extractLsb'_toNat, Nat.shiftRight_eq_div_pow]

theorem toNat_varField (v : Word) : (varField v).toNat = v.toNat / 32 % 4 := by
  simp [varField, BitVec.extractLsb'_toNat, Nat.shiftRight_eq_div_pow]

theorem wField_eq_decide (v : Word) : wField v = decide (v.toNat / 16 % 2 = 1) := by
  simp [wField, BitVec.getLsbD, Nat.testBit_eq_decide_div_mod_eq]

theorem extractLsb'_ne_zero_iff (v : Word) (a b : Nat) : v.extractLsb' a b ≠ 0 ↔ v.toNat / 2 ^ a % 2 ^ b ≠ 0 := by
  rw [Ne, ← BitVec.toNat_inj]; simp [BitVec.extractLsb'_toNat, Nat.shiftRight_eq_div_pow]

theorem toNat_initWord (w : TagWidth) (x : BitVec 2) :
    (initWord w x).toNat = x.toNat * 32 + (if w = .tag128 then 16 else 0) + 1 := by
  cases w <;> revert x <;> decide

theorem toNat_writeWord (n : BitVec 4) : (writeWord n).toNat = n.toNat * 16 + 2 := by revert n; decide

theorem toNat_finishWord : finishWord.toNat = 3 := by decide

/-- The decoder with every test as arithmetic on the word's number. -/
theorem decodeCommand_eq (v : Word) : decodeCommand v =
    if v.toNat % 16 = 1 then
      if 128 ≤ v.toNat ∨ 2 ≤ v.toNat / 32 % 4 then .error .field
      else .ok (.init (.ofBit (wField v)) (varField v))
    else if v.toNat % 16 = 2 then
      if 256 ≤ v.toNat ∨ 8 < v.toNat / 16 % 16 then .error .field else .ok (.write (nField v))
    else if v.toNat % 16 = 3 then
      if 16 ≤ v.toNat then .error .field else .ok .finish
    else .error .opcode := by
  have hv := v.isLt
  have h7 : v.toNat / 2 ^ 7 % 2 ^ 57 ≠ 0 ↔ 128 ≤ v.toNat := by omega
  have h8 : v.toNat / 2 ^ 8 % 2 ^ 56 ≠ 0 ↔ 256 ≤ v.toNat := by omega
  have h4 : v.toNat / 2 ^ 4 % 2 ^ 60 ≠ 0 ↔ 16 ≤ v.toNat := by omega
  unfold decodeCommand
  simp only [opField_eq_iff, extractLsb'_ne_zero_iff, toNat_nField, toNat_varField, h7, h8, h4]
  rfl

end Sys2Proof
end

