-- ==== Sys2Proof/Laws/Sip.lean ====
section
/-! SUPPORT. Laws of the byte and word operations, lane by lane. -/

namespace Sys2Proof.Machine

@[simp] theorem rounds_zero (s : HashState) : rounds s 0 = s := rfl
theorem rounds_succ (s : HashState) (k : Nat) : rounds s (k + 1) = rounds (sipRound s) k := rfl

@[simp] theorem le64_nil : le64 [] = 0 := rfl
theorem le64_cons (b : Byte) (bs : List Byte) : le64 (b :: bs) = b.setWidth 64 ||| (le64 bs <<< 8) := rfl

/-- Bit i of le64(s) is bit i mod 8 of byte i / 8, and 0 where there is no such byte. -/
theorem getLsbD_le64 (s : List Byte) : ∀ i, i < 64 → (le64 s).getLsbD i = (s.getD (i / 8) 0).getLsbD (i % 8) := by
  induction s with
  | nil => intro i _; simp
  | cons b bs ih =>
    intro i hi
    rw [le64_cons, BitVec.getLsbD_or, BitVec.getLsbD_setWidth, BitVec.getLsbD_shiftLeft]
    by_cases h : i < 8
    · simp [hi, h, Nat.div_eq_of_lt h, Nat.mod_eq_of_lt h]
    · obtain ⟨k, rfl⟩ : ∃ k, i = k + 8 := ⟨i - 8, by omega⟩
      simp [hi, ih k (by omega), Nat.add_div_right]

/-- Bit i of a rotation to the left by r (40_sipround.md R63). -/
theorem getLsbD_rotl (x : Word) (r i : Nat) (h1 : 1 ≤ r) (h2 : r ≤ 63) (hi : i < 64) :
    (rotl x r).getLsbD i = if r ≤ i then x.getLsbD (i - r) else x.getLsbD (64 - r + i) := by
  simp only [rotl, BitVec.getLsbD_or, BitVec.getLsbD_shiftLeft, BitVec.getLsbD_ushiftRight, hi]
  by_cases h : r ≤ i
  · have hz : x.getLsbD (64 - r + i) = false := BitVec.getLsbD_of_ge _ _ (by omega)
    simp [h, hz]
  · simp [h]

/-- Bit i of lane j of a word is the word's bit 8j + i. -/
theorem getLsbD_byteLane (x : Word) (j i : Nat) : (byteLane x j).getLsbD i = (decide (i < 8) && x.getLsbD (8 * j + i)) := by
  simp [byteLane, BitVec.getLsbD_extractLsb']

@[simp] theorem length_bytesLe (x : Word) : (bytesLe x).length = 8 := by simp [bytesLe]

theorem getElem?_bytesLe (x : Word) (j : Nat) (h : j < 8) : (bytesLe x)[j]? = some (byteLane x j) := by
  simp [bytesLe, h]

/-- The span of WRITE N as N lanes of DIN. -/
theorem dinSpan_eq_lanes (din : Word) (n : BitVec 4) (h : n.toNat ≤ 8) :
    dinSpan din n = (List.range n.toNat).map (byteLane din) := by
  simp [dinSpan, bytesLe, ← List.map_take, List.take_range, Nat.min_eq_left h]

theorem length_dinSpan (din : Word) (n : BitVec 4) (h : n.toNat ≤ 8) : (dinSpan din n).length = n.toNat := by
  simp [dinSpan_eq_lanes din n h]

@[simp] theorem Variant.ofCode_code (x : Variant) : Variant.ofCode x.code = some x := by cases x <;> rfl

theorem Variant.ofCode_eq_none {c : BitVec 2} : Variant.ofCode c = none ↔ 2 ≤ c.toNat := by revert c; decide

@[simp] theorem PortReg.ofIndex_index (r : PortReg) : PortReg.ofIndex r.index = r := by cases r <;> rfl

end Sys2Proof.Machine
end

