-- ==== Sys2Proof/Laws/State.lean ====
section
/-! SUPPORT. What each update of the state leaves in each field, so that no proof unfolds a record update. -/

namespace Sys2Proof.Machine

/-! ### setBlock -/

@[simp] theorem State.setBlock_block (s : State) (b : Block) : (s.setBlock b).block = b := rfl
@[simp] theorem State.setBlock_host (s : State) (b : Block) : (s.setBlock b).host = s.host := rfl
@[simp] theorem State.setBlock_params (s : State) (b : Block) : (s.setBlock b).params = s.params := rfl
@[simp] theorem State.setBlock_self (s : State) : s.setBlock s.block = s := rfl
@[simp] theorem State.setBlock_setBlock (s : State) (b b' : Block) : (s.setBlock b).setBlock b' = s.setBlock b' := rfl

/-! ### setPending -/

@[simp] theorem State.setPending_block (s : State) (es : List HostEvent) : (s.setPending es).block = s.block := rfl
@[simp] theorem State.setPending_pending (s : State) (es : List HostEvent) : (s.setPending es).host.pending = es := rfl
@[simp] theorem State.setPending_readData (s : State) (es : List HostEvent) :
    (s.setPending es).host.readData = s.host.readData := rfl
@[simp] theorem State.setPending_params (s : State) (es : List HostEvent) : (s.setPending es).params = s.params := rfl
@[simp] theorem State.setPending_setPending (s : State) (es fs : List HostEvent) :
    (s.setPending es).setPending fs = s.setPending fs := rfl
theorem State.setBlock_setPending (s : State) (b : Block) (es : List HostEvent) :
    (s.setPending es).setBlock b = (s.setBlock b).setPending es := rfl

/-! ### returnData -/

@[simp] theorem State.returnData_block (s : State) (v : Word) : (s.returnData v).block = s.block := rfl
@[simp] theorem State.returnData_pending (s : State) (v : Word) : (s.returnData v).host.pending = s.host.pending := rfl
@[simp] theorem State.returnData_readData (s : State) (v : Word) : (s.returnData v).host.readData = some v := rfl
@[simp] theorem State.returnData_params (s : State) (v : Word) : (s.returnData v).params = s.params := rfl

/-! ### HashState -/

@[simp] theorem HashState.xorV0_zero (s : HashState) : s.xorV0 0#64 = s := by simp [HashState.xorV0]
@[simp] theorem HashState.xorV3_zero (s : HashState) : s.xorV3 0#64 = s := by simp [HashState.xorV3]

end Sys2Proof.Machine
end

