-- ==== Sys2Proof/Laws/Ops.lean ====
section
/-! SUPPORT. For each shared operation, once, what it does: the error action, the store of a register, appending a span,
starting an instance and writing its tags. -/

namespace Sys2Proof.Machine

/-! ### The error action -/

/-- Everything raise Error(code) does (60_exceptions.md R108). -/
theorem raiseError_eq (e : ErrorCode) (b : Block) :
    raiseError e b = { b with err := true, ecode := if b.err then b.ecode else e.value } := by
  unfold raiseError
  split <;> rename_i h
  · cases b; simp_all
  · simp_all

@[simp] theorem raiseError_err (e : ErrorCode) (b : Block) : (raiseError e b).err = true := by rw [raiseError_eq]
@[simp] theorem raiseError_ecode (e : ErrorCode) (b : Block) :
    (raiseError e b).ecode = if b.err then b.ecode else e.value := by rw [raiseError_eq]
@[simp] theorem raiseError_v (e : ErrorCode) (b : Block) : (raiseError e b).v = b.v := by rw [raiseError_eq]
@[simp] theorem raiseError_tail (e : ErrorCode) (b : Block) : (raiseError e b).tail = b.tail := by rw [raiseError_eq]
@[simp] theorem raiseError_len (e : ErrorCode) (b : Block) : (raiseError e b).len = b.len := by rw [raiseError_eq]
@[simp] theorem raiseError_var (e : ErrorCode) (b : Block) : (raiseError e b).var = b.var := by rw [raiseError_eq]
@[simp] theorem raiseError_w (e : ErrorCode) (b : Block) : (raiseError e b).w = b.w := by rw [raiseError_eq]
@[simp] theorem raiseError_initd (e : ErrorCode) (b : Block) : (raiseError e b).initd = b.initd := by rw [raiseError_eq]
@[simp] theorem raiseError_tv (e : ErrorCode) (b : Block) : (raiseError e b).tv = b.tv := by rw [raiseError_eq]
@[simp] theorem raiseError_din (e : ErrorCode) (b : Block) : (raiseError e b).din = b.din := by rw [raiseError_eq]
@[simp] theorem raiseError_key0 (e : ErrorCode) (b : Block) : (raiseError e b).key0 = b.key0 := by rw [raiseError_eq]
@[simp] theorem raiseError_key1 (e : ErrorCode) (b : Block) : (raiseError e b).key1 = b.key1 := by rw [raiseError_eq]
@[simp] theorem raiseError_tag0 (e : ErrorCode) (b : Block) : (raiseError e b).tag0 = b.tag0 := by rw [raiseError_eq]
@[simp] theorem raiseError_tag1 (e : ErrorCode) (b : Block) : (raiseError e b).tag1 = b.tag1 := by rw [raiseError_eq]

theorem whenInitialized_of_initd (k : Block → Block) {b : Block} (h : b.initd = true) : whenInitialized k b = k b := by
  simp [whenInitialized, h]

theorem whenInitialized_of_uninit (k : Block → Block) {b : Block} (h : b.initd = false) :
    whenInitialized k b = raiseError .notInitialized b := by simp [whenInitialized, h]

/-! ### ABSORB -/

/-- What ABSORB leaves alone (43_streaming.md R76, 45_host_port.md R102): all but V0..V3, TAIL and LEN. -/
theorem absorb_frame (b : Block) (s : List Byte) :
    absorb b s = { b with v := (absorb b s).v, tail := (absorb b s).tail, len := (absorb b s).len } := rfl

@[simp] theorem absorb_len (b : Block) (s : List Byte) : (absorb b s).len = b.len + BitVec.ofNat 64 s.length := rfl
@[simp] theorem absorb_var (b : Block) (s : List Byte) : (absorb b s).var = b.var := rfl
@[simp] theorem absorb_w (b : Block) (s : List Byte) : (absorb b s).w = b.w := rfl
@[simp] theorem absorb_initd (b : Block) (s : List Byte) : (absorb b s).initd = b.initd := rfl
@[simp] theorem absorb_err (b : Block) (s : List Byte) : (absorb b s).err = b.err := rfl
@[simp] theorem absorb_ecode (b : Block) (s : List Byte) : (absorb b s).ecode = b.ecode := rfl
@[simp] theorem absorb_tv (b : Block) (s : List Byte) : (absorb b s).tv = b.tv := rfl
@[simp] theorem absorb_din (b : Block) (s : List Byte) : (absorb b s).din = b.din := rfl
@[simp] theorem absorb_key0 (b : Block) (s : List Byte) : (absorb b s).key0 = b.key0 := rfl
@[simp] theorem absorb_key1 (b : Block) (s : List Byte) : (absorb b s).key1 = b.key1 := rfl
@[simp] theorem absorb_tag0 (b : Block) (s : List Byte) : (absorb b s).tag0 = b.tag0 := rfl
@[simp] theorem absorb_tag1 (b : Block) (s : List Byte) : (absorb b s).tag1 = b.tag1 := rfl

/-- A span shorter than a block is all left over (43_streaming.md R76, step 2). -/
theorem absorbChunks_short (c : Nat) (v : HashState) (s : List Byte) (h : s.length < 8) : absorbChunks c v s = (v, s) := by
  match s, h with
  | [], _ | [_], _ | [_, _], _ | [_, _, _], _ | [_, _, _, _], _ | [_, _, _, _, _], _ | [_, _, _, _, _, _], _
  | [_, _, _, _, _, _, _], _ => rfl
  | _ :: _ :: _ :: _ :: _ :: _ :: _ :: _ :: _, h => simp at h; omega

/-- Eight bytes in front of a span are one compressed block. -/
theorem absorbChunks_block (c : Nat) (v : HashState) (m rest : List Byte) (h : m.length = 8) :
    absorbChunks c v (m ++ rest) = absorbChunks c (compress v (le64 m) c) rest := by
  match m, h with
  | [_, _, _, _, _, _, _, _], _ => rfl

/-! ### An instance's beginning and its tags -/

/-- What FINISH leaves alone (44_finalization.md R93): all but TAG0, TAG1 and TV. -/
theorem writeTags_frame (algo : Tag128Algo) (b : Block) :
    writeTags algo b = { b with tag0 := (writeTags algo b).tag0, tag1 := (writeTags algo b).tag1, tv := true } := rfl

/-- What INIT leaves alone (42_initialization.md R71): DIN and the keys. -/
theorem startInstance_frame (algo : Tag128Algo) (w : TagWidth) (x : Variant) (b : Block) :
    (startInstance algo w x b).din = b.din ∧ (startInstance algo w x b).key0 = b.key0 ∧
      (startInstance algo w x b).key1 = b.key1 := ⟨rfl, rfl, rfl⟩

end Sys2Proof.Machine
end

