-- ==== Sys2Proof/Laws/PerInstr.lean ====
section
/-! SUPPORT. A law made per instruction: the encoding of a well-formed instruction has the fixed bits of its row of the
opcode table. -/

namespace Sys2Proof.Laws.TableRow

/-- The bits of an encoded form, as the opcode table numbers them: the descriptor of a port transaction, the command
word. -/
def codeBits : Code → Nat
  | .port desc _ => desc.toNat
  | .command v => v.toNat

/-- The row's "mask". -/
def mask : Instr → Nat
  | .rd _ => 0x8
  | .wr _ _ => 0x8
  | .init _ _ => 0xFFFFFFFFFFFFFF8F
  | .write _ => 0xFFFFFFFFFFFFFF0F
  | .finish => 0xFFFFFFFFFFFFFFFF

/-- The row's "match". -/
def pattern : Instr → Nat
  | .rd _ => 0x0
  | .wr _ _ => 0x8
  | .init _ _ => 0x1
  | .write _ => 0x2
  | .finish => 0x3

def Statement (i : Instr) : Prop := WellFormed i → codeBits (encode i) &&& mask i = pattern i

theorem rd (r : PortReg) : Statement (.rd r) := by intro _; cases r <;> decide
theorem wr (r : PortReg) (v : Word) : Statement (.wr r v) := by
  intro _
  show (wrDescriptor r).toNat &&& 0x8 = 0x8
  cases r <;> decide
theorem init (w : TagWidth) (var : BitVec 2) : Statement (.init w var) := by
  intro _; cases w <;> revert var <;> decide
theorem write (n : BitVec 4) : Statement (.write n) := by intro _; revert n; decide
theorem finish : Statement .finish := by intro _; decide

end Sys2Proof.Laws.TableRow
end

