-- ==== Sys2Proof/Laws/Step.lean ====
section
/-! SUPPORT. What an instruction and a step can do, said once: each meaning is a function of the block (or a read), and a
step is the meaning of the oldest event. -/

namespace Sys2Proof.Machine

/-- The effect of an instruction on the block, said as a function; RD has none. -/
def commandEffect (algo : Tag128Algo) (c : Command) (b : Block) : Block :=
  match c with
  | .init w var =>
    match Variant.ofCode var with
    | some x => startInstance algo w x b
    | none => raiseError .reservedField b
  | .write n =>
    if 8 < n.toNat then raiseError .reservedField b else whenInitialized (fun b => absorb b (dinSpan b.din n)) b
  | .finish => whenInitialized (writeTags algo) b

theorem exec_command (c : Command) (s : State) :
    exec c.toInstr s = .next (s.setBlock (commandEffect s.params.tag128Algo c s.block)) := by
  cases c with
  | init w var =>
    simp only [Command.toInstr, exec, execInit, commandEffect]
    cases Variant.ofCode var <;> rfl
  | write n => simp only [Command.toInstr, exec, execWrite, commandEffect]; split <;> rfl
  | finish => rfl

theorem exec_rd (r : PortReg) (s : State) : exec (.rd r) s = .next (s.returnData (readReg r s.block)) := rfl

theorem exec_wr_store (r : PortReg) (v : Word) (s : State) (h : r ≠ .cmd) :
    exec (.wr r v) s = .next (s.setBlock (storeReg r v s.block)) := by cases r <;> first | rfl | exact absurd rfl h

theorem exec_wr_cmd_ok {v : Word} {c : Command} (s : State) (h : decodeCommand v = .ok c) :
    exec (.wr .cmd v) s = exec c.toInstr s := by
  simp only [exec, execWr, dispatchCommand, h]; cases c <;> rfl

theorem exec_wr_cmd_error {v : Word} {e : Reserved} (s : State) (h : decodeCommand v = .error e) :
    exec (.wr .cmd v) s = .next (s.setBlock (raiseError (.ofReserved e) s.block)) := by
  simp only [exec, execWr, dispatchCommand, h]

/-- An instruction gives a next state in one of four ways. -/
theorem exec_cases (i : Instr) (s : State) :
    (∃ r, i = .rd r ∧ exec i s = .next (s.returnData (readReg r s.block))) ∨
    (∃ r v, i = .wr r v ∧ r ≠ .cmd ∧ exec i s = .next (s.setBlock (storeReg r v s.block))) ∨
    (∃ v e, i = .wr .cmd v ∧ decodeCommand v = .error e ∧
      exec i s = .next (s.setBlock (raiseError (.ofReserved e) s.block))) ∨
    (∃ c, (i = c.toInstr ∨ ∃ v, i = .wr .cmd v ∧ decodeCommand v = .ok c) ∧
      exec i s = .next (s.setBlock (commandEffect s.params.tag128Algo c s.block))) := by
  cases i with
  | rd r => exact .inl ⟨r, rfl, rfl⟩
  | wr r v =>
    by_cases hr : r = .cmd
    · subst hr
      cases h : decodeCommand v with
      | error e => exact .inr (.inr (.inl ⟨v, e, rfl, h, exec_wr_cmd_error s h⟩))
      | ok c => exact .inr (.inr (.inr ⟨c, .inr ⟨v, rfl, h⟩, (exec_wr_cmd_ok s h).trans (exec_command c s)⟩))
    · exact .inr (.inl ⟨r, v, rfl, hr, exec_wr_store r v s hr⟩)
  | init w var => exact .inr (.inr (.inr ⟨.init w var, .inl rfl, exec_command (.init w var) s⟩))
  | write n => exact .inr (.inr (.inr ⟨.write n, .inl rfl, exec_command (.write n) s⟩))
  | finish => exact .inr (.inr (.inr ⟨.finish, .inl rfl, exec_command .finish s⟩))

theorem step_nil {s : State} (h : s.host.pending = []) : step s = .next s := by
  simp [step, performNext, nextEvent, h]

theorem step_cons {s : State} {e : HostEvent} {rest : List HostEvent} (h : s.host.pending = e :: rest) :
    step s = perform e (s.setPending rest) := by simp [step, performNext, nextEvent, h]

theorem perform_port (desc : BitVec 4) (data : Word) (s : State) :
    perform (.port desc data) s = exec (decodePort desc data) s := rfl

theorem perform_reset (s : State) : perform .reset s = .next (s.setBlock .reset) := rfl

theorem perform_busRead_ok {addr size : Nat} {s : State} {r : PortReg} (h : busTarget s.params.base addr size = .ok r) :
    perform (.busRead addr size) s = exec (.rd r) s := by
  simp only [perform, transactionOf, h, Except.map, runCode]; cases r <;> rfl

theorem perform_busWrite_ok {addr : Nat} {bytes : List Byte} {s : State} {r : PortReg}
    (h : busTarget s.params.base addr bytes.length = .ok r) :
    perform (.busWrite addr bytes) s = exec (.wr r (busWord s.params.busOrder bytes)) s := by
  simp only [perform, transactionOf, h, Except.map, runCode]; cases r <;> rfl

theorem perform_busRead_error {addr size : Nat} {s : State} {r : Refusal}
    (h : busTarget s.params.base addr size = .error r) : perform (.busRead addr size) s = .refused r := by
  simp only [perform, transactionOf, h, Except.map]

theorem perform_busWrite_error {addr : Nat} {bytes : List Byte} {s : State} {r : Refusal}
    (h : busTarget s.params.base addr bytes.length = .error r) : perform (.busWrite addr bytes) s = .refused r := by
  simp only [perform, transactionOf, h, Except.map]

/-- A step that answers a next state is an idle step, a reset, or one instruction on the state the event was taken from,
and the event determines which. -/
theorem step_next_cases {s t : State} (h : step s = .next t) :
    (s.host.pending = [] ∧ t = s) ∨
    (∃ rest, s.host.pending = .reset :: rest ∧ t = (s.setPending rest).setBlock .reset) ∨
    (∃ e rest desc data, s.host.pending = e :: rest ∧ transactionOf s.params e = .ok (some (.port desc data)) ∧
      exec (decodePort desc data) (s.setPending rest) = .next t) := by
  cases hp : s.host.pending with
  | nil => rw [step_nil hp] at h; injection h with h; exact .inl ⟨rfl, h.symm⟩
  | cons e rest =>
    rw [step_cons hp] at h
    cases e with
    | reset => rw [perform_reset] at h; injection h with h; exact .inr (.inl ⟨rest, rfl, h.symm⟩)
    | port desc data => exact .inr (.inr ⟨_, rest, desc, data, rfl, rfl, h⟩)
    | busRead addr size =>
      cases hb : busTarget s.params.base addr size with
      | error r => rw [perform_busRead_error (s := s.setPending rest) hb] at h; injection h
      | ok r =>
        refine .inr (.inr ⟨_, rest, rdDescriptor r, 0, rfl, by simp only [transactionOf, hb, Except.map], ?_⟩)
        rw [perform_busRead_ok (s := s.setPending rest) hb] at h
        cases r <;> exact h
    | busWrite addr bytes =>
      cases hb : busTarget s.params.base addr bytes.length with
      | error r => rw [perform_busWrite_error (s := s.setPending rest) hb] at h; injection h
      | ok r =>
        refine .inr (.inr ⟨_, rest, wrDescriptor r, busWord s.params.busOrder bytes, rfl, by simp only [transactionOf, hb, Except.map], ?_⟩)
        rw [perform_busWrite_ok (s := s.setPending rest) hb] at h
        cases r <;> exact h

/-- A step on a waiting event that answers a next state, by the instruction the event carries. -/
theorem step_event_cases {s t : State} {e : HostEvent} {rest : List HostEvent} (hp : s.host.pending = e :: rest)
    (h : step s = .next t) :
    (e = .reset ∧ t = (s.setPending rest).setBlock .reset) ∨
    (∃ r, eventInstr s.params e = some (.rd r) ∧ t = (s.setPending rest).returnData (readReg r s.block)) ∨
    (∃ r v, eventInstr s.params e = some (.wr r v) ∧ r ≠ .cmd ∧
      t = (s.setPending rest).setBlock (storeReg r v s.block)) ∨
    (∃ v er, eventInstr s.params e = some (.wr .cmd v) ∧ decodeCommand v = .error er ∧
      t = (s.setPending rest).setBlock (raiseError (.ofReserved er) s.block)) ∨
    (∃ c, eventInstr s.params e = some c.toInstr ∧
      t = (s.setPending rest).setBlock (commandEffect s.params.tag128Algo c s.block)) := by
  obtain ⟨h1, -⟩ | ⟨rest', h1, h2⟩ | ⟨e', rest', desc, data, h1, ht, h2⟩ := step_next_cases h
  · simp [hp] at h1
  · rw [hp] at h1; injection h1 with a b; subst a; subst b; exact .inl ⟨rfl, h2⟩
  · rw [hp] at h1; injection h1 with a b; subst a; subst b
    have he : eventInstr s.params e = some (resolveCommand (decodePort desc data)) := by simp only [eventInstr, ht]
    rw [he]
    obtain ⟨r, hi, hx⟩ | ⟨r, w, hi, hr, hx⟩ | ⟨w, er, hi, hd, hx⟩ | ⟨c, hi, hx⟩ :=
      exec_cases (decodePort desc data) (s.setPending rest)
    all_goals rw [h2] at hx; injection hx with hx
    · rw [hi]; exact .inr (.inl ⟨r, rfl, hx⟩)
    · rw [hi]; exact .inr (.inr (.inl ⟨r, w, by cases r <;> first | rfl | exact absurd rfl hr, hr, hx⟩))
    · rw [hi]; exact .inr (.inr (.inr (.inl ⟨w, er, by simp [resolveCommand, hd], hd, hx⟩)))
    · refine .inr (.inr (.inr (.inr ⟨c, ?_, hx⟩)))
      rcases hi with hi | ⟨w, hi, hd⟩
      · exfalso; unfold decodePort at hi; split at hi <;> cases c <;> simp [Command.toInstr] at hi
      · rw [hi]; simp [resolveCommand, hd]

end Sys2Proof.Machine
end

