-- ==== Sys2Proof/Laws/Stream.lean ====
section
/-! SUPPORT. Appending bytes one at a time, and the fold of a stream's blocks: the pieces from which the laws of the
stream are put together. -/

namespace Sys2Proof.Machine

/-! ### The byte-serial append (43_streaming.md R79) -/

/-- Bytes that do not fill the tail only extend it. -/
theorem foldl_appendByte_short (s : List Byte) : ∀ b : Block, b.tail.length + s.length < 8 →
    s.foldl appendByte b = { b with tail := b.tail ++ s } := by
  induction s with
  | nil => intro b _; simp
  | cons x s ih =>
    intro b h
    simp at h
    rw [List.foldl_cons, appendByte, if_neg (by simp; omega), ih _ (by simp; omega)]
    simp

/-- Bytes that just fill the tail compress it as one block. -/
theorem foldl_appendByte_full (m : List Byte) : ∀ b : Block, m ≠ [] → b.tail.length + m.length = 8 →
    m.foldl appendByte b = { b with v := compress b.v (le64 (b.tail ++ m)) b.var.cRounds, tail := [] } := by
  induction m with
  | nil => intro b h; simp at h
  | cons x s ih =>
    intro b _ h
    simp at h
    by_cases hs : s = []
    · subst hs; rw [List.foldl_cons, appendByte, if_pos (by simp at *; omega)]; rfl
    · have hpos : 0 < s.length := List.length_pos_iff.2 hs
      rw [List.foldl_cons, appendByte, if_neg (by simp; omega), ih _ hs (by simp; omega)]
      simp

/-- The byte-serial append neither reads nor writes LEN. -/
theorem foldl_appendByte_len (s : List Byte) : ∀ (b : Block) (l : Word),
    s.foldl appendByte { b with len := l } = { s.foldl appendByte b with len := l } := by
  induction s with
  | nil => intro b l; rfl
  | cons x s ih =>
    intro b l
    rw [List.foldl_cons, List.foldl_cons, ← ih]
    congr 1
    simp only [appendByte]; split <;> rfl

/-- It never leaves more than 7 bytes in the tail. -/
theorem foldl_appendByte_tail (s : List Byte) : ∀ b : Block, b.tail.length ≤ 7 →
    (s.foldl appendByte b).tail.length ≤ 7 := by
  induction s with
  | nil => intro b h; exact h
  | cons x s ih =>
    intro b h
    rw [List.foldl_cons]
    apply ih
    simp only [appendByte]; split <;> simp at *; omega

/-! ### The fold of whole blocks (10_state.md R32) -/

/-- The first block of a stream is compressed first. -/
theorem streamFold_append_block (c : Nat) (v : HashState) (m rest : List Byte) (hm : m.length = 8) :
    streamFold c v (m ++ rest) = streamFold c (compress v (le64 m) c) rest := by
  unfold streamFold
  have hl : (m ++ rest).length / 8 = rest.length / 8 + 1 := by simp [hm]
  rw [hl, List.range_succ_eq_map, List.foldl_cons, List.foldl_map]
  have h0 : streamBlock (m ++ rest) 0 = le64 m := by simp [streamBlock, ← hm]
  rw [h0]
  congr 1
  funext v i
  congr 1
  simp only [streamBlock]
  congr 2
  simp [List.drop_append, hm, Nat.mul_succ]

/-- The chunks of ABSORB are the stream's blocks, and what they leave over is its tail. -/
theorem absorbChunks_eq (n : Nat) : ∀ (c : Nat) (v : HashState) (s : List Byte), s.length ≤ n →
    absorbChunks c v s = (streamFold c v s, streamTail s) := by
  induction n using Nat.strong_induction_on with
  | _ n ih =>
    intro c v s hl
    by_cases h : s.length < 8
    · rw [absorbChunks_short _ _ _ h]; simp [streamFold, streamTail, Nat.div_eq_of_lt h]
    · obtain ⟨m, rest, rfl, hm⟩ : ∃ m rest, s = m ++ rest ∧ m.length = 8 :=
        ⟨s.take 8, s.drop 8, (List.take_append_drop 8 s).symm, by simp; omega⟩
      simp at hl
      rw [absorbChunks_block _ _ _ _ hm, ih (n - 8) (by omega) _ _ rest (by omega),
        streamFold_append_block _ _ _ _ hm]
      congr 1
      simp [streamTail, List.drop_append, hm, Nat.mul_succ]

end Sys2Proof.Machine
end

