-- ==== Sys2Proof/Tests/Slice0.lean ====
section
/-! SUPPORT. The model's own tests, with expected values from 95_test_vectors.md and the rules' worked examples, and for
every statement that has hypotheses a state and operands that meet them. -/

/- One thread at a time: many small evaluations at once take more threads than the memory limit has stacks for. -/
set_option Elab.async false

namespace Sys2Proof.Tests

open Sys2Proof Sys2Proof.Machine

/-! ### Small states -/

/-- The canonical key (95_test_vectors.md). -/
def testKey0 : Word := 0x0706050403020100

def testKey1 : Word := 0x0f0e0d0c0b0a0908

/-- The block after SETKEY with the canonical key and an accepted INIT. -/
def keyedBlock (w : TagWidth) (x : Variant) : Block :=
  startInstance .doc w x { Block.reset with key0 := testKey0, key1 := testKey1 }

/-- Partial(7) of §2.6: the stream is 00 to 06, and DIN holds the next eight bytes. -/
def partlyBlock : Block :=
  { keyedBlock .tag64 .sip24 with tail := [0, 1, 2, 3, 4, 5, 6], len := 7, din := 0x0e0d0c0b0a090807 }

/-- A block whose ERR is set with code 2. -/
def failedBlock : Block := { keyedBlock .tag64 .sip24 with err := true, ecode := 2 }

def stateOf (b : Block) (es : List HostEvent) : State := ⟨b, ⟨es, none⟩, .default⟩

/-- A field of the block an instruction leaves. -/
def after {α : Type} (f : Block → α) (o : Host.Outcome State Fault Refusal) : Option α :=
  match o with
  | .next t => some (f t.block)
  | .fault _ => none
  | .refused _ => none

/-- What a read instruction returned. -/
def returned (o : Host.Outcome State Fault Refusal) : Option Word :=
  match o with
  | .next t => t.host.readData
  | .fault _ => none
  | .refused _ => none

/-! ### WellFormed refuses the reserved operands (30_encoding.md R54, R55) -/

theorem test_init_var2_ill_formed : ¬ WellFormed (.init .tag64 2) := by decide
theorem test_init_var3_ill_formed : ¬ WellFormed (.init .tag128 3) := by decide
theorem test_write9_ill_formed : ¬ WellFormed (.write 9) := by decide
theorem test_write15_ill_formed : ¬ WellFormed (.write 15) := by decide
theorem test_write8_well_formed : WellFormed (.write 8) := by decide

/-! ### Decoding words written out from the formats (R49, R53, R55, R56; the words of R60 and §2.10) -/

theorem test_decode_rd_status : decode (.port 0b0110 0) = .ok (.rd .status) := by decide
theorem test_decode_rd_reserved : decode (.port 0b0111 0) = .ok (.rd .reserved7) := by decide
theorem test_decode_wr_key1 : decode (.port 0b1011 0x0f0e0d0c0b0a0908) = .ok (.wr .key1 0x0f0e0d0c0b0a0908) := by decide
theorem test_decode_init_13_64 : decode (.command 0x21) = .ok (.init .tag64 1) := by decide
theorem test_decode_init_24_128 : decode (.command 0x11) = .ok (.init .tag128 0) := by decide
theorem test_decode_write8 : decode (.command 0x82) = .ok (.write 8) := by decide
theorem test_decode_finish : decode (.command 0x03) = .ok .finish := by decide
theorem test_decode_zero : decode (.command 0) = .error .opcode := by decide
theorem test_decode_init_bit7 : decode (.command 0x81) = .error .field := by decide
theorem test_decode_write9 : decode (.command 0x92) = .error .field := by decide
theorem test_decode_finish_bit32 : decode (.command 0x100000003) = .error .field := by decide
theorem test_decode_write_bit62 : decode (.command 0x4000000000000002) = .error .field := by decide
theorem test_table_word_wr : decodeTableWord 8 0x9 = some (.wr .din 0) := by decide
theorem test_table_word_init : decodeTableWord 64 0x31 = some (.init .tag128 1) := by decide
theorem test_table_word_reserved : decodeTableWord 64 0x41 = none := by decide

/-! ### The arithmetic (§2.1 to §2.5) -/

theorem test_rotl13 : rotl 0x0123456789abcdef 13 = 0x68acf13579bde024 := by decide
theorem test_sipRound_wraps :
    sipRound ⟨-1, -1, -1, -1⟩ =
      ⟨0xffffffff00000000, 0xfffffffffffdffff, 0xffffffffffffffff, 0xffffffff00200000⟩ := by decide
theorem test_sipRoundInv :
    sipRoundInv ⟨1, 0, 0, 0⟩ =
      ⟨0x40000001ffeff801, 0xc0000000000fffff, 0xfffffffff8000000, 0x0000000008000000⟩ := by decide
theorem test_initState_ref :
    initState .ref testKey0 testKey1 .tag128 =
      ⟨0x7469686173716475, 0x6b617f6d656e668b, 0x6b7f62616d677361, 0x7b6b696e727e6c7b⟩ := by decide
theorem test_compress_c2 :
    compress (initState .doc testKey0 testKey1 .tag64) 0x0706050403020100 2 =
      ⟨0x4a017198de0a59e0, 0x0d52f6f62a4f59a4, 0x634cb3577b01fd3d, 0xa5224d6f55c7d9c8⟩ := by decide +kernel
theorem test_padBlock_wraps : padBlock [1, 2, 3] 0x1ff = 0xff00000000030201 := by decide
/-- 42_initialization.md R73: the first constant reads "somepseu". -/
theorem test_constant_ascii :
    (bytesLe (keyedState 0 0).v0).reverse = [0x73, 0x6f, 0x6d, 0x65, 0x70, 0x73, 0x65, 0x75] := by decide

/-! ### One step of each instruction -/

/-- §2.8: INIT.13.128 leaves STATUS = 0x1801. -/
theorem test_init_status :
    after statusWord (exec (.init .tag128 1) (stateOf Block.reset [])) = some 0x1801 := by decide
/-- §3 P4: INIT with VAR = 2 after a code 3 leaves ECODE = 3. -/
theorem test_init_rejected :
    after statusWord (exec (.init .tag64 2) (stateOf { Block.reset with err := true, ecode := 3 } [])) = some 0x32 := by
  decide
/-- §2.6, row t = 7, N = 8: the new tail is 08 to 0e. -/
theorem test_write_tail :
    after (fun b => (b.tail, b.len)) (exec (.write 8) (stateOf partlyBlock [])) =
      some ([8, 9, 10, 11, 12, 13, 14], 15) := by decide +kernel
/-- §2.6: the block compressed is 0x0706050403020100. -/
theorem test_write_block :
    after (fun b => b.v) (exec (.write 1) (stateOf partlyBlock [])) =
      some ⟨0x4a017198de0a59e0, 0x0d52f6f62a4f59a4, 0x634cb3577b01fd3d, 0xa5224d6f55c7d9c8⟩ := by decide +kernel
/-- §2.9.1, n = 0. -/
theorem test_finish_empty :
    after (fun b => (b.tag0, b.tag1)) (exec .finish (stateOf (keyedBlock .tag64 .sip24) [])) =
      some (0x726fdb47dd0e0e31, 0) := by decide +kernel
/-- §2.9.2, n = 0, SipHash-1-3 in 128-bit mode under DOC. -/
theorem test_finish_doc128 :
    after (fun b => (b.tag0, b.tag1)) (exec .finish (stateOf (keyedBlock .tag128 .sip13) [])) =
      some (0xabac0158050fc4dc, 0x9b7adaa1a9d21770) := by decide +kernel
/-- §2.8: three bytes appended leave STATUS = 0x301. -/
theorem test_rd_status :
    returned (exec (.rd .status) (stateOf { keyedBlock .tag64 .sip24 with tail := [0, 1, 2], len := 3 } [])) =
      some 0x301 := by decide
/-- 45_host_port.md R101: CMD reads 0. -/
theorem test_rd_cmd : returned (exec (.rd .cmd) (stateOf partlyBlock [])) = some 0 := by decide
/-- §2.8: WRITE 8 right after reset is rejected with code 3. -/
theorem test_wr_cmd_uninit :
    after statusWord (exec (.wr .cmd 0x82) State.reset) = some 0x32 := by decide
/-- 45_host_port.md R100: TAG0 ignores a write. -/
theorem test_wr_tag0_ignored :
    after (fun b => b.tag0) (exec (.wr .tag0 5) (stateOf (keyedBlock .tag64 .sip24) [])) = some 0 := by decide

/-! ### Steps -/

/-- The first instruction after reset, from the table's numbering. -/
theorem test_withFetchWord_init :
    after statusWord (step (State.reset.withFetchWord 64 0x11)) = some 0x801 := by decide
theorem test_withFetchWord_rd :
    returned (step (State.reset.withFetchWord 8 0x6)) = some 0 := by decide
/-- 20_memory.md R42: the order `big` puts the first byte in bits 63:56. -/
theorem test_bus_write_big :
    after (fun b => b.din) (step { stateOf Block.reset [.busWrite 0x48 [0x11, 0x22, 0x33, 0x44, 0x55, 0x66, 0x77, 0x88]]
      with params := ⟨.doc, 0x40, .big⟩ }) = some 0x1122334455667788 := by decide
/-- 93_implementation_defined.md I7: a 4-byte access is refused. -/
theorem test_bus_narrow_refused :
    step (stateOf Block.reset [.busRead 8 4]) = .refused .busAccessUndefined := rfl
theorem test_bus_outside_refused :
    step (stateOf Block.reset [.busRead 64 8]) = .refused .busAddressOutsideBlock := rfl

/-! ### Witnesses: for every statement with hypotheses, a state and operands that meet them -/

theorem keyedBlock_inv (w : TagWidth) (x : Variant) : (keyedBlock w x).Inv := by
  constructor <;> simp [keyedBlock, startInstance]

theorem keyedBlock_represents (w : TagWidth) (x : Variant) :
    Represents .doc testKey0 testKey1 [] (keyedBlock w x) := by
  constructor <;> simp [keyedBlock, startInstance, streamFold, streamTail, Block.reset]

theorem partlyBlock_represents : Represents .doc testKey0 testKey1 [0, 1, 2, 3, 4, 5, 6] partlyBlock := by
  constructor <;> rfl

theorem partlyBlock_inv : partlyBlock.Inv := by
  constructor <;> simp [partlyBlock, keyedBlock, startInstance]

/-- A host write to CMD as an event. -/
def cmdEvent (v : Word) : HostEvent := asmWr .cmd v

theorem witness_DecodeOfEncode : WellFormed (.init .tag128 1) ∧ WellFormed (.write 8) ∧ WellFormed (.wr .cmd 0) := by decide

theorem witness_StepRunsDecodedTransaction :
    (stateOf partlyBlock [.port 0b1000 0x12, .reset]).host.pending = .port 0b1000 0x12 :: [.reset] := rfl

theorem witness_StepRunsEncodedInstruction :
    WellFormed (.write 8) ∧
      (stateOf partlyBlock [cmdEvent 0x82, .reset]).host.pending = eventOf (encode (.write 8)) :: [.reset] := by decide

theorem witness_IdleStepChangesNothing : State.reset.host.pending = [] := rfl

theorem witness_DispatchFollowsItsRule :
    decodeCommand 0x4 = .error .opcode ∧ decodeCommand 0x92 = .error .field ∧
      (decodeCommand 0x02 = .ok (.write 0) ∧ opField 0x02 ∈ [0x1#4, 0x2, 0x3] ∧ State.reset.block.initd = false) ∧
      (decodeCommand 0x01 = .ok (.init .tag64 0) ∧ opField 0x01 = 0x1#4) ∧
      (decodeCommand 0x03 = .ok .finish ∧ (stateOf partlyBlock []).block.initd = true) := by decide

theorem witness_StepTakesOneEvent :
    (∃ t, step (stateOf partlyBlock [cmdEvent 3, .reset]) = .next t) ∧
      step (stateOf Block.reset [.busWrite 1 [0, 0]]) = .refused .busAccessUndefined := ⟨⟨_, rfl⟩, rfl⟩

theorem witness_ResetLeavesResetValues : (stateOf partlyBlock [.reset, .reset]).host.pending = .reset :: [.reset] := rfl

theorem witness_StepKeepsBlockInvariant :
    (stateOf partlyBlock [cmdEvent 0x82]).block.Inv ∧ ∃ t, step (stateOf partlyBlock [cmdEvent 0x82]) = .next t :=
  ⟨partlyBlock_inv, _, rfl⟩

theorem witness_StepKeepsStreamInvariant :
    (stateOf partlyBlock [cmdEvent 0x82]).StreamInv ∧ ∃ t, step (stateOf partlyBlock [cmdEvent 0x82]) = .next t :=
  ⟨fun _ => ⟨_, _, _, partlyBlock_represents⟩, _, rfl⟩

theorem witness_StatusHoldsEveryField : (stateOf partlyBlock []).block.Inv := partlyBlock_inv

theorem witness_HostRegistersBelongToTheHost :
    (∃ t, step (stateOf partlyBlock [cmdEvent 0x82]) = .next t) ∧ cmdEvent 0x82 ≠ .reset ∧
      eventInstr .default (cmdEvent 0x82) = some (.write 8) ∧
      eventInstr .default (asmWr .din 5) = some (.wr .din 5) := ⟨⟨_, rfl⟩, by decide, by decide, by decide⟩

theorem witness_TagsChangeOnlyAtFinishInitReset :
    (∃ t, step (stateOf partlyBlock [cmdEvent 0x82]) = .next t) ∧
      eventInstr .default (cmdEvent 0x82) = some (.write 8) ∧
      (∃ t, step (stateOf partlyBlock [cmdEvent 0x31]) = .next t) ∧
      eventInstr .default (cmdEvent 0x31) = some (.init .tag128 1) ∧
      (∃ t, step (stateOf partlyBlock [.reset]) = .next t) ∧
      (∃ t, step (stateOf partlyBlock [cmdEvent 0x03]) = .next t) ∧
      eventInstr .default (cmdEvent 0x03) = some .finish ∧ partlyBlock.initd = true ∧
      partlyBlock.Inv ∧ partlyBlock.tv = false :=
  ⟨⟨_, rfl⟩, by decide, ⟨_, rfl⟩, by decide, ⟨_, rfl⟩, ⟨_, rfl⟩, by decide, rfl, partlyBlock_inv, rfl⟩

/-- The WRITE of §2.6 that completes a block changes V0..V3. -/
theorem witness_HashStateWrittenOnlyByInitWriteReset :
    partlyBlock.Inv ∧
      after (fun b => decide (b.v ≠ partlyBlock.v)) (step (stateOf partlyBlock [cmdEvent 0x12])) = some true :=
  ⟨partlyBlock_inv, by decide +kernel⟩

theorem witness_BusAccessIsOnePortTransaction :
    let p : Params := ⟨.doc, 0x40, .big⟩
    p.base % 8 = 0 ∧ [0, 0, 0, 0, 0, 0, 0, (1 : Byte)].length = 8 ∧
      (0x40 + 60 < p.base + 64 ∧ p.base < 0x40 + 60 + 1 ∧ (1 ≠ 8 ∨ (0x40 + 60) % 8 ≠ 0)) ∧
      (0x40 - 1 < p.base + 64 ∧ p.base < 0x40 - 1 + 8 ∧ (8 ≠ 8 ∨ (0x40 - 1) % 8 ≠ 0)) ∧
      ({ stateOf partlyBlock [.busRead (0x40 + 8 * 7) 8] with params := p } : State).host.pending =
        [.busRead (p.base + 8 * (7 : BitVec 3).toNat) 8] := by decide

/-- A platform with BASE = 0x44: the read at 0x48 is aligned and straddles KEY0's and DIN's bytes. -/
theorem witness_BusAtUnalignedBaseIsRefused :
    let p : Params := ⟨.doc, 0x44, .little⟩
    p.base % 8 ≠ 0 ∧ 0x48 < p.base + 64 ∧ p.base < 0x48 + 8 ∧ p.base < 0x48 + [(0 : Byte)].length ∧
      step { stateOf partlyBlock [.busRead 0x48 8] with params := p } = .refused .busAccessUndefined :=
  ⟨by decide, by decide, by decide, by decide, rfl⟩

theorem witness_BusOrderPlacesEveryByte :
    ([0, 1, 2, 3, 4, 5, 6, (7 : Byte)].length = 8 ∧ 0 < 8 ∧ 7 < 8) ∧
      let p : Params := ⟨.doc, 0x40, .big⟩
      p.base % 8 = 0 ∧
        ({ stateOf partlyBlock [.busRead 0x48 8] with params := p } : State).host.pending =
          [.busRead (p.base + 8 * (1 : BitVec 3).toNat) 8] := by decide

theorem witness_RotlMovesEveryBit : 1 ≤ 1 ∧ 1 ≤ 63 ∧ 63 ≤ 63 ∧ 0 < 64 ∧ 63 < 64 := by decide

theorem witness_InitStartsAnInstance :
    2 ≤ (2 : BitVec 2).toNat ∧ 2 ≤ (3 : BitVec 2).toNat ∧
      (opField 0x81 = 0x1 ∧ (0x81 : Word).extractLsb' 7 57 ≠ 0) ∧
      (opField 0x41 = 0x1 ∧ 2 ≤ (varField 0x41).toNat) := by decide

theorem witness_Le64IsLittleEndian :
    [0, 1, 2, 3, 4, 5, 6, (7 : Byte)].length ≤ 8 ∧ ([] : List Byte).length ≤ 8 ∧ 0 < 8 ∧ 7 < 8 := by decide

theorem witness_AbsorbIsByteSerial : partlyBlock.tail.length ≤ 7 := by decide

theorem witness_ChunkingInvariance : partlyBlock.tail.length ≤ 7 ∧ (keyedBlock .tag64 .sip24).tail.length ≤ 7 := by decide

theorem witness_WriteCompressesAtMostOneBlock :
    (stateOf partlyBlock []).block.initd = true ∧ (stateOf partlyBlock []).block.tail.length ≤ 7 ∧
      (8 : BitVec 4).toNat ≤ 8 ∧ (0 : BitVec 4).toNat ≤ 8 := by decide

theorem witness_WriteCountsItsBytes :
    ((stateOf partlyBlock []).block.initd = true ∧ ∀ n ∈ [(8 : BitVec 4), 0, 1], n.toNat ≤ 8) ∧
      State.reset.block.initd = false ∧ 8 < (9 : BitVec 4).toNat := by decide

theorem witness_ZeroLengthWriteChangesNothing :
    (stateOf partlyBlock []).block.tail.length ≤ 7 ∧ (stateOf partlyBlock []).block.initd = true ∧
      State.reset.block.tail.length ≤ 7 ∧ State.reset.block.initd = false := by decide

theorem witness_WriteIgnoresUpperLanes :
    (1 : BitVec 4).toNat ≤ 8 ∧ ∀ j, j < (1 : BitVec 4).toNat →
      (0xff07 : Word).extractLsb' (8 * j) 8 = (stateOf partlyBlock []).block.din.extractLsb' (8 * j) 8 := by decide

theorem witness_StreamStateMachine :
    (∃ t, exec (.init .tag64 Variant.sip13.code) State.reset = .next t) ∧
      ((stateOf partlyBlock []).block.initd = true ∧ (stateOf partlyBlock []).block.tail.length ≤ 7 ∧
        (1 : BitVec 4).toNat ≤ 8 ∧ ∃ t, exec (.write 1) (stateOf partlyBlock []) = .next t) ∧
      (∃ t, exec .finish (stateOf partlyBlock []) = .next t) ∧
      rejectionCode 0x92 true = some .reservedField ∧ rejectionCode 0x02 false = some .notInitialized ∧
      rejectionCode 0x00 true = some .reservedOpcode ∧
      (∃ t, exec (.wr .cmd 0x92) (stateOf partlyBlock []) = .next t) ∧
      (∃ t, step (stateOf partlyBlock [asmRd .status]) = .next t) ∧ asmRd .status ≠ .reset ∧
      eventInstr .default (asmRd .status) = some (.rd .status) ∧
      eventInstr .default (asmWr .din 5) = some (.wr .din 5) :=
  ⟨⟨_, rfl⟩, ⟨rfl, by decide, by decide, _, rfl⟩, ⟨_, rfl⟩, by decide, by decide, by decide, ⟨_, rfl⟩, ⟨_, rfl⟩,
    by decide, by decide, by decide⟩

theorem witness_PadBlockLayout : [1, 2, 3, 4, 5, 6, (7 : Byte)].length ≤ 7 ∧ ([] : List Byte).length ≤ 7 ∧ 6 < 7 := by
  decide

theorem witness_FinishWritesTheTag :
    (stateOf partlyBlock []).block.initd = true ∧ State.reset.block.initd = false ∧
      opField 0x13 = 0x3 ∧ (0x13 : Word).extractLsb' 4 60 ≠ 0 := by decide

theorem witness_FinishIsRepeatable :
    (stateOf partlyBlock []).block.initd = true ∧
      ∀ i ∈ [Instr.rd .status, .wr .din 9, .wr .cmd 0x92, .wr .cmd 0x03, .finish], leavesStream i = true := by decide

theorem witness_WriteExtendsTheStream :
    (8 : BitVec 4).toNat ≤ 8 ∧ Represents .doc testKey0 testKey1 [0, 1, 2, 3, 4, 5, 6] (stateOf partlyBlock []).block :=
  ⟨by decide, partlyBlock_represents⟩

theorem witness_TagIsSipHashOfTheStream :
    (∀ a ∈ [((0x0706050403020100 : Word), (8 : BitVec 4)), (8, 1)], a.2.toNat ≤ 8) ∧
      ∀ a ∈ [((0x100f0e0d0c0b0a09 : Word), (8 : BitVec 4)), (0, 0)], a.2.toNat ≤ 8 := by simp

/-- R61's last chunk of a span of 9 bytes is its last byte, and of 8 bytes the whole span. -/
theorem test_last_chunk :
    (([0, 1, 2, 3, 4, 5, 6, 7, 8] : List Byte).drop (8 * ((9 - 1) / 8)) = [8]) ∧
      ([0, 1, 2, 3, 4, 5, 6, 7] : List Byte).drop (8 * ((8 - 1) / 8)) = [0, 1, 2, 3, 4, 5, 6, 7] := by decide

theorem witness_AbsorbPseudoInstruction :
    (stateOf partlyBlock []).block.initd = true ∧ (stateOf partlyBlock []).block.tail.length ≤ 7 := by decide

theorem witness_ReservedWordsAreRejected :
    (0x40 : Word) ∉ legalCommandWords ∧ (0x92 : Word) ∉ legalCommandWords ∧
      decodeCommand 0x40 = .error .opcode ∧ decodeCommand 0x92 = .error .field := by decide

theorem witness_RejectionRecordsTheLowestCause :
    rejectionCode 0x92 State.reset.block.initd = some .reservedField ∧
      rejectionCode 0x03 State.reset.block.initd = some .notInitialized ∧
      rejectionCode 0x31 State.reset.block.initd = none := by decide

/-- The word 0 on CMD is no INIT, and the word 0x01 is an accepted one. -/
theorem cmd_zero_is_no_init (w : TagWidth) (x : BitVec 2) (h : eventInstr .default (cmdEvent 0) = some (.init w x)) :
    2 ≤ x.toNat := by
  rw [show eventInstr .default (cmdEvent 0) = some (.wr .cmd 0) by decide] at h
  cases h

theorem cmd_one_is_init : ∃ w x, eventInstr .default (cmdEvent 0x01) = some (.init w x) ∧ x.toNat < 2 :=
  ⟨.tag64, 0, by decide, by decide⟩

theorem witness_ErrorsAreSticky :
    ((stateOf failedBlock [cmdEvent 0]).block.err = true ∧ (∃ t, step (stateOf failedBlock [cmdEvent 0]) = .next t) ∧
      ∀ w x, eventInstr (stateOf failedBlock []).params (cmdEvent 0) = some (.init w x) → 2 ≤ x.toNat) ∧
      ((∃ t, step (stateOf failedBlock [cmdEvent 0x01]) = .next t) ∧
        ∃ w x, eventInstr (stateOf failedBlock []).params (cmdEvent 0x01) = some (.init w x) ∧ x.toNat < 2) ∧
      ∃ t, step (stateOf failedBlock [.reset]) = .next t :=
  ⟨⟨rfl, ⟨_, rfl⟩, cmd_zero_is_no_init⟩, ⟨⟨_, rfl⟩, cmd_one_is_init⟩, _, rfl⟩

theorem witness_UninitRejectsWriteAndFinish :
    State.reset.block.initd = false ∧ (8 : BitVec 4).toNat ≤ 8 ∧
      ((∃ t, step (stateOf Block.reset [cmdEvent 0x01]) = .next t) ∧
        ∃ w x, eventInstr (stateOf Block.reset []).params (cmdEvent 0x01) = some (.init w x) ∧ x.toNat < 2) ∧
      ((∃ t, step (stateOf partlyBlock [cmdEvent 0]) = .next t) ∧
        ∀ w x, eventInstr (stateOf partlyBlock []).params (cmdEvent 0) = some (.init w x) → 2 ≤ x.toNat) ∧
      ∃ t, step (stateOf partlyBlock [.reset]) = .next t :=
  ⟨rfl, by decide, ⟨⟨_, rfl⟩, cmd_one_is_init⟩, ⟨⟨_, rfl⟩, cmd_zero_is_no_init⟩, _, rfl⟩

theorem witness_OnlyLowByteOfLenMatters :
    (0xab07 : Word).extractLsb' 0 8 = (stateOf partlyBlock [cmdEvent 0x03]).block.len.extractLsb' 0 8 ∧
      ∃ t, step (stateOf partlyBlock [cmdEvent 0x03]) = .next t := ⟨by decide, _, rfl⟩

theorem witness_UninitHidesHashStateAndLen :
    (stateOf Block.reset [cmdEvent 0x01]).block.initd = false ∧
      (∃ t, step (stateOf Block.reset [cmdEvent 0x01]) = .next t ∧ t.block.initd = true) ∧
      (∃ t, step (stateOf Block.reset [cmdEvent 0x82]) = .next t) ∧
      ([1, 2] : List Byte).length = (stateOf { Block.reset with tail := [3, 4] } [.reset]).block.tail.length ∧
      (stateOf { Block.reset with tail := [3, 4] } [.reset]).block.initd = false ∧
      ∃ t, step (stateOf { Block.reset with tail := [3, 4] } [.reset]) = .next t :=
  ⟨rfl, ⟨_, rfl, rfl⟩, ⟨_, rfl⟩, rfl, rfl, _, rfl⟩

end Sys2Proof.Tests
end

section
/-! The byte-sequence encodings of 00_scope.md R8: each of le64 and bytes_le undoes the other. -/

namespace Sys2Proof.Machine

/-- R8, R38: lane j of le64(s) is byte j of s, and 0 past its end. -/
theorem byteLane_le64 (s : List Byte) {j : Nat} (hj : j < 8) : byteLane (le64 s) j = s.getD j 0 := by
  ext i hi
  have hdiv : (8 * j + i) / 8 = j := by omega
  have hmod : (8 * j + i) % 8 = i := by omega
  rw [← BitVec.getLsbD_eq_getElem, ← BitVec.getLsbD_eq_getElem, getLsbD_byteLane, getLsbD_le64 s _ (by omega), hdiv, hmod]
  simp [hi]

theorem getD_bytesLe (x : Word) {j : Nat} (hj : j < 8) : (bytesLe x).getD j 0 = byteLane x j := by
  simp [List.getD_eq_getElem?_getD, getElem?_bytesLe x j hj]

/-- Bit i of a word is bit i mod 8 of its lane i / 8, so the eight lanes determine the word. -/
theorem le64_bytesLe (x : Word) : le64 (bytesLe x) = x := by
  ext i hi
  have hlane : 8 * (i / 8) + i % 8 = i := Nat.div_add_mod i 8
  have hmod : i % 8 < 8 := Nat.mod_lt _ (by decide)
  rw [← BitVec.getLsbD_eq_getElem, ← BitVec.getLsbD_eq_getElem, getLsbD_le64 _ _ hi, getD_bytesLe x (by omega),
    getLsbD_byteLane, hlane]
  simp [hmod]

/-- Settles O30, bit by bit: lane j of le64 is byte j for a sequence of any length, so the bound on it is not needed. -/
theorem le64IsLittleEndian : Obligations.Le64IsLittleEndian := by
  unfold Obligations.Le64IsLittleEndian
  exact ⟨fun s _ _ hj => byteLane_le64 s hj, fun x => ⟨length_bytesLe x, le64_bytesLe x⟩⟩

end Sys2Proof.Machine
end

section
/-! What a step does to the block, by the event it performs: the one case split that the invariants and the frame
statements of 10_state.md rest on. -/

namespace Sys2Proof.Machine

theorem Variant.ofCode_eq_some {c : BitVec 2} {x : Variant} : Variant.ofCode c = some x ↔ c = x.code := by
  cases x <;> revert c <;> decide

theorem Variant.toNat_code_lt (x : Variant) : x.code.toNat < 2 := by cases x <;> decide

/-- The instruction is a command that the block carries out, and does not reject with code 2 or 3 (60_exceptions.md
R106). -/
def commandAccepted (initd : Bool) : Instr → Bool
  | .rd _ => false
  | .wr _ _ => false
  | .init _ var => var.toNat < 2
  | .write n => n.toNat ≤ 8 && initd
  | .finish => initd

/-- The block that an event leaves of `b` when it takes place: one constructor for each effect an event can have. -/
inductive EventEffect (p : Params) (e : HostEvent) (b : Block) : Block → Prop
  | reset (he : e = .reset) : EventEffect p e b .reset
  | read (r : PortReg) (he : eventInstr p e = some (.rd r)) : EventEffect p e b b
  | store (r : PortReg) (v : Word) (he : eventInstr p e = some (.wr r v)) (hr : r ≠ .cmd) :
      EventEffect p e b (storeReg r v b)
  | reject (i : Instr) (ec : ErrorCode) (he : eventInstr p e = some i) (hi : commandAccepted b.initd i = false) :
      EventEffect p e b (raiseError ec b)
  | start (w : TagWidth) (x : Variant) (he : eventInstr p e = some (.init w x.code)) :
      EventEffect p e b (startInstance p.tag128Algo w x b)
  | append (n : BitVec 4) (he : eventInstr p e = some (.write n)) (hn : n.toNat ≤ 8) (hi : b.initd = true) :
      EventEffect p e b (absorb b (dinSpan b.din n))
  | finish (he : eventInstr p e = some .finish) (hi : b.initd = true) : EventEffect p e b (writeTags p.tag128Algo b)

theorem commandEffect_eventEffect {p : Params} {e : HostEvent} (b : Block) (c : Command)
    (he : eventInstr p e = some c.toInstr) : EventEffect p e b (commandEffect p.tag128Algo c b) := by
  cases c with
  | init w var =>
    cases hx : Variant.ofCode var with
    | some x =>
      obtain rfl := Variant.ofCode_eq_some.1 hx
      simpa only [commandEffect, hx] using EventEffect.start w x he
    | none =>
      have hvar : 2 ≤ var.toNat := Variant.ofCode_eq_none.1 hx
      simpa only [commandEffect, hx] using
        EventEffect.reject _ .reservedField he (by simpa [commandAccepted, Command.toInstr])
  | write n =>
    by_cases hn : 8 < n.toNat
    · simpa only [commandEffect, hn, if_true] using
        EventEffect.reject _ .reservedField he (by simp [commandAccepted, Command.toInstr, hn])
    · cases hi : b.initd with
      | true =>
        simpa only [commandEffect, hn, if_false, whenInitialized_of_initd _ hi] using
          EventEffect.append n he (by omega) hi
      | false =>
        simpa only [commandEffect, hn, if_false, whenInitialized_of_uninit _ hi] using
          EventEffect.reject _ .notInitialized he (by simp [commandAccepted, Command.toInstr, hi])
  | finish =>
    cases hi : b.initd with
    | true => simpa only [commandEffect, whenInitialized_of_initd _ hi] using EventEffect.finish he hi
    | false =>
      simpa only [commandEffect, whenInitialized_of_uninit _ hi] using
        EventEffect.reject _ .notInitialized he (by simp [commandAccepted, Command.toInstr, hi])

theorem step_eventEffect {s t : State} {e : HostEvent} {rest : List HostEvent} (hp : s.host.pending = e :: rest)
    (h : step s = .next t) : t.params = s.params ∧ EventEffect s.params e s.block t.block := by
  obtain ⟨he, rfl⟩ | ⟨r, he, rfl⟩ | ⟨r, v, he, hr, rfl⟩ | ⟨v, er, he, -, rfl⟩ | ⟨c, he, rfl⟩ := step_event_cases hp h
  · exact ⟨rfl, .reset he⟩
  · exact ⟨rfl, .read r he⟩
  · exact ⟨rfl, .store r v he hr⟩
  · exact ⟨rfl, .reject _ _ he rfl⟩
  · exact ⟨rfl, commandEffect_eventEffect s.block c he⟩

/-- A step, idle or not, as it changes the block. -/
theorem step_block_cases {s t : State} (h : step s = .next t) :
    t.params = s.params ∧ (t.block = s.block ∨ ∃ e, EventEffect s.params e s.block t.block) := by
  cases hp : s.host.pending with
  | nil =>
    rw [step_nil hp] at h
    injection h with h
    exact h ▸ ⟨rfl, .inl rfl⟩
  | cons e rest =>
    obtain ⟨hpar, heff⟩ := step_eventEffect hp h
    exact ⟨hpar, .inr ⟨e, heff⟩⟩

end Sys2Proof.Machine
end

section
/-! ABSORB as it acts on the stream (43_streaming.md R76, 10_state.md R32): the tail and the span together go through
the chunks, so appending span after span is one pass over all bytes. -/

namespace Sys2Proof.Machine

theorem length_streamTail (σ : List Byte) : (streamTail σ).length = σ.length % 8 := by
  simp [streamTail]; omega

theorem absorbChunks_eq_stream (c : Nat) (v : HashState) (s : List Byte) :
    absorbChunks c v s = (streamFold c v s, streamTail s) := absorbChunks_eq s.length c v s le_rfl

/-- A first pass may stop after any bytes: a second one goes on from its state, with its left-over bytes in front. -/
theorem absorbChunks_append (c : Nat) (v : HashState) (σ s : List Byte) :
    absorbChunks c v (σ ++ s) = absorbChunks c (absorbChunks c v σ).1 ((absorbChunks c v σ).2 ++ s) := by
  induction v, σ using absorbChunks.induct c with
  | case1 v b0 b1 b2 b3 b4 b5 b6 b7 rest ih => exact ih
  | case2 v σ h => rw [absorbChunks.eq_2 c v σ h]

/-- Filling the tail first and then taking chunks is taking chunks of the tail and the span together. -/
theorem absorb_eq_absorbChunks (b : Block) (s : List Byte) (ht : b.tail.length ≤ 7) :
    absorb b s = { b with
      v := (absorbChunks b.var.cRounds b.v (b.tail ++ s)).1
      tail := (absorbChunks b.var.cRounds b.v (b.tail ++ s)).2
      len := b.len + BitVec.ofNat 64 s.length } := by
  by_cases h0 : b.tail.length = 0
  · have hnil : b.tail = [] := List.length_eq_zero_iff.1 h0
    simp [absorb, fillTail, fillCount, hnil]
  by_cases hs : b.tail.length + s.length < 8
  · have hk : fillCount b.tail s = s.length := by simp [fillCount, h0]; omega
    simp [absorb, fillTail, hk, absorbChunks_short, hs, hs.ne]
  · have hk : fillCount b.tail s = 8 - b.tail.length := by simp [fillCount, h0]; omega
    have hlen : (b.tail ++ s.take (8 - b.tail.length)).length = 8 := by simp; omega
    have hsplit : b.tail ++ s = (b.tail ++ s.take (8 - b.tail.length)) ++ s.drop (8 - b.tail.length) := by simp
    rw [hsplit, absorbChunks_block _ _ _ _ hlen]
    simp [absorb, fillTail, hk, hlen]

/-- A tail and a span of fewer than 8 bytes together complete no block. -/
theorem absorb_v_of_short {b : Block} {s : List Byte} (h : b.tail.length + s.length < 8) : (absorb b s).v = b.v := by
  rw [absorb_eq_absorbChunks b s (by omega), absorbChunks_short _ _ _ (by simpa using h)]

theorem length_absorb_tail {b : Block} (s : List Byte) (h : b.tail.length ≤ 7) : (absorb b s).tail.length ≤ 7 := by
  rw [absorb_eq_absorbChunks b s h, absorbChunks_eq_stream, length_streamTail]; omega

/-- The stream that a block represents grows by the appended span, under the same key. -/
theorem Represents.absorb_span {algo : Tag128Algo} {k0 k1 : Word} {σ : List Byte} {b : Block}
    (h : Represents algo k0 k1 σ b) (s : List Byte) : Represents algo k0 k1 (σ ++ s) (absorb b s) := by
  obtain ⟨hinitd, hlen, hv, htail⟩ := h
  have ht : b.tail.length ≤ 7 := by rw [htail, length_streamTail]; omega
  have hchunks := absorbChunks_append b.var.cRounds (initState algo k0 k1 b.w) σ s
  rw [absorbChunks_eq_stream _ _ σ, ← hv, ← htail, absorbChunks_eq_stream, Prod.mk.injEq] at hchunks
  obtain ⟨hfold, hrest⟩ := hchunks
  refine ⟨hinitd, ?_, ?_, ?_⟩
  · rw [absorb_len, hlen, List.length_append, BitVec.ofNat_add]
  · rw [absorb_eq_absorbChunks b s ht]; exact hfold.symm
  · rw [absorb_eq_absorbChunks b s ht]; exact hrest.symm

end Sys2Proof.Machine
end

section
/-! The invariants of the block and of the stream (10_state.md R16, R22, R23, R28, R29, R32, R33): they hold at reset and
every step keeps them. -/

namespace Sys2Proof.Machine

/-! ### The block invariant -/

theorem reset_inv : Block.reset.Inv := by constructor <;> simp [Block.reset]

theorem ErrorCode.toNat_value_le (e : ErrorCode) : e.value.toNat ≤ 3 := by cases e <;> decide

theorem ErrorCode.value_ne_zero (e : ErrorCode) : e.value ≠ 0 := by cases e <;> decide

/-- The host's stores touch no field that the invariant speaks of. -/
theorem storeReg_inv {b : Block} (h : b.Inv) (r : PortReg) (v : Word) : (storeReg r v b).Inv := by
  obtain ⟨htail, hlegal, hzero, htv, htags, htag1, huninit⟩ := h
  cases r <;> exact ⟨htail, hlegal, hzero, htv, htags, htag1, huninit⟩

theorem raiseError_inv {b : Block} (h : b.Inv) (ec : ErrorCode) : (raiseError ec b).Inv where
  tail_short := by simpa using h.tail_short
  ecode_legal := by
    rw [raiseError_ecode]
    split
    · exact h.ecode_legal
    · exact ec.toNat_value_le
  ecode_zero_iff := by
    have hne : (if b.err then b.ecode else ec.value) ≠ 0 := by
      split
      next herr => rw [Ne, h.ecode_zero_iff, herr]; decide
      next => exact ec.value_ne_zero
    simpa using hne
  tv_initd := by simpa using h.tv_initd
  tags_zero := by simpa using h.tags_zero
  tag1_zero := by simpa using h.tag1_zero
  uninit_reset := by simpa using h.uninit_reset

theorem startInstance_inv (algo : Tag128Algo) (w : TagWidth) (x : Variant) (b : Block) :
    (startInstance algo w x b).Inv := by
  constructor <;> simp [startInstance]

/-- Only an initialized block absorbs, so the span breaks none of the reset values. -/
theorem absorb_inv {b : Block} (h : b.Inv) (hi : b.initd = true) (s : List Byte) : (absorb b s).Inv where
  tail_short := length_absorb_tail s h.tail_short
  ecode_legal := h.ecode_legal
  ecode_zero_iff := h.ecode_zero_iff
  tv_initd := h.tv_initd
  tags_zero := h.tags_zero
  tag1_zero := h.tag1_zero
  uninit_reset := by simp [hi]

/-- Finalization in 64-bit mode gives no second word (44_finalization.md R92). -/
theorem finalizeTags_tag64_snd (algo : Tag128Algo) (s2 : HashState) (d : Nat) :
    (finalizeTags algo .tag64 s2 d).2 = 0 := by
  cases algo <;> rfl

theorem writeTags_inv {b : Block} (h : b.Inv) (hi : b.initd = true) (algo : Tag128Algo) :
    (writeTags algo b).Inv where
  tail_short := h.tail_short
  ecode_legal := h.ecode_legal
  ecode_zero_iff := h.ecode_zero_iff
  tv_initd := fun _ => hi
  tags_zero := fun htv => nomatch htv
  tag1_zero := fun hw => by
    have hw : b.w = .tag64 := hw
    simp [writeTags, hw, finalizeTags_tag64_snd]
  uninit_reset := fun hn => absurd (hi.symm.trans hn) (by decide)

theorem EventEffect.inv {p : Params} {e : HostEvent} {b b' : Block} (h : EventEffect p e b b') (hinv : b.Inv) :
    b'.Inv := by
  cases h with
  | reset he => exact reset_inv
  | read r he => exact hinv
  | store r v he hr => exact storeReg_inv hinv r v
  | reject i ec he hi => exact raiseError_inv hinv ec
  | start w x he => exact startInstance_inv _ w x b
  | append n he hn hi => exact absorb_inv hinv hi _
  | finish he hi => exact writeTags_inv hinv hi _

/-- Settles O13, effect by effect. -/
theorem stepKeepsBlockInvariant : Obligations.StepKeepsBlockInvariant := by
  unfold Obligations.StepKeepsBlockInvariant
  intro s t hinv hstep
  obtain ⟨-, hsame | ⟨e, heff⟩⟩ := step_block_cases hstep
  · exact hsame ▸ hinv
  · exact heff.inv hinv

/-! ### The stream invariant -/

theorem Represents.storeReg {algo : Tag128Algo} {k0 k1 : Word} {σ : List Byte} {b : Block}
    (h : Represents algo k0 k1 σ b) (r : PortReg) (v : Word) : Represents algo k0 k1 σ (storeReg r v b) := by
  cases r <;> exact ⟨h.initd, h.len, h.v, h.tail⟩

theorem Represents.raiseError {algo : Tag128Algo} {k0 k1 : Word} {σ : List Byte} {b : Block}
    (h : Represents algo k0 k1 σ b) (ec : ErrorCode) : Represents algo k0 k1 σ (raiseError ec b) := by
  obtain ⟨hinitd, hlen, hv, htail⟩ := h
  constructor <;> simpa

/-- INIT leaves the block at the beginning of a stream under the key registers. -/
theorem represents_startInstance (algo : Tag128Algo) (w : TagWidth) (x : Variant) (b : Block) :
    Represents algo b.key0 b.key1 [] (startInstance algo w x b) := by
  constructor <;> simp [startInstance, streamFold, streamTail]

theorem Represents.writeTags {algo : Tag128Algo} {k0 k1 : Word} {σ : List Byte} {b : Block}
    (h : Represents algo k0 k1 σ b) : Represents algo k0 k1 σ (writeTags algo b) :=
  ⟨h.initd, h.len, h.v, h.tail⟩

/-- The stream invariant of a block: R32 (b) to (d) for some key and stream, whenever INITD is 1. -/
def Block.StreamInv (algo : Tag128Algo) (b : Block) : Prop :=
  b.initd = true → ∃ k0 k1 σ, Represents algo k0 k1 σ b

theorem State.streamInv_iff (s : State) : s.StreamInv ↔ s.block.StreamInv s.params.tag128Algo := Iff.rfl

theorem EventEffect.streamInv {p : Params} {e : HostEvent} {b b' : Block} (h : EventEffect p e b b')
    (hinv : b.StreamInv p.tag128Algo) : b'.StreamInv p.tag128Algo := by
  intro hi'
  cases h with
  | reset he => exact nomatch hi'
  | read r he => exact hinv hi'
  | store r v he hr =>
    obtain ⟨k0, k1, σ, hrep⟩ := hinv (by cases r <;> exact hi')
    exact ⟨k0, k1, σ, hrep.storeReg r v⟩
  | reject i ec he hi =>
    obtain ⟨k0, k1, σ, hrep⟩ := hinv (by simpa using hi')
    exact ⟨k0, k1, σ, hrep.raiseError ec⟩
  | start w x he => exact ⟨b.key0, b.key1, [], represents_startInstance _ w x b⟩
  | append n he hn hi =>
    obtain ⟨k0, k1, σ, hrep⟩ := hinv hi
    exact ⟨k0, k1, σ ++ dinSpan b.din n, hrep.absorb_span _⟩
  | finish he hi =>
    obtain ⟨k0, k1, σ, hrep⟩ := hinv hi
    exact ⟨k0, k1, σ, hrep.writeTags⟩

/-- Settles O14, effect by effect: INIT starts the empty stream, a WRITE extends it, and the rest leaves it. -/
theorem stepKeepsStreamInvariant : Obligations.StepKeepsStreamInvariant := by
  unfold Obligations.StepKeepsStreamInvariant
  intro s t hinv hstep
  rw [State.streamInv_iff] at hinv ⊢
  obtain ⟨hpar, hsame | ⟨e, heff⟩⟩ := step_block_cases hstep
  · rw [hpar, hsame]; exact hinv
  · rw [hpar]; exact heff.streamInv hinv

/-! ### Reset -/

/-- Settles O12: the fields are at their reset values, and INITD is 0. -/
theorem resetMeetsInvariants : Obligations.ResetMeetsInvariants := by
  unfold Obligations.ResetMeetsInvariants
  exact ⟨reset_inv, fun hi => nomatch hi⟩

/-- Settles O11: the reset event stores Block.reset, which is the table of R33. -/
theorem resetLeavesResetValues : Obligations.ResetLeavesResetValues := by
  unfold Obligations.ResetLeavesResetValues
  refine ⟨fun s rest hp => ?_, rfl, by decide, rfl⟩
  exact ⟨(s.setPending rest).setBlock .reset, by rw [step_cons hp, perform_reset], rfl⟩

end Sys2Proof.Machine
end

section
/-! Which events change INITD and V0..V3 (10_state.md R14, R20), and what STATUS shows (R29). -/

namespace Sys2Proof.Machine

@[simp] theorem storeReg_initd (r : PortReg) (v : Word) (b : Block) : (storeReg r v b).initd = b.initd := by
  cases r <;> rfl

@[simp] theorem storeReg_v (r : PortReg) (v : Word) (b : Block) : (storeReg r v b).v = b.v := by cases r <;> rfl

/-! ### INITD -/

theorem EventEffect.eq_reset {p : Params} {b b' : Block} (h : EventEffect p .reset b b') : b' = .reset := by
  have hnone : eventInstr p .reset = none := rfl
  cases h with
  | reset he => rfl
  | read r he | store r v he hr | reject i ec he hi | start w x he | append n he hn hi | finish he hi =>
    rw [hnone] at he
    exact nomatch he

theorem EventEffect.eq_startInstance {p : Params} {e : HostEvent} {b b' : Block} (h : EventEffect p e b b')
    {w : TagWidth} {x : BitVec 2} (hinit : eventInstr p e = some (.init w x)) (hx : x.toNat < 2) :
    ∃ var, b' = startInstance p.tag128Algo w var b := by
  cases h with
  | reset he => subst he; exact nomatch hinit
  | start w' var he =>
    rw [hinit] at he
    injection he with he
    injection he with hw _
    exact ⟨var, hw ▸ rfl⟩
  | reject i ec he hi =>
    obtain rfl : .init w x = i := Option.some.inj (hinit.symm.trans he)
    simp [commandAccepted] at hi
    omega
  | read r he | store r v he hr | append n he hn hi | finish he hi =>
    rw [hinit] at he
    exact nomatch he

theorem EventEffect.initd_eq {p : Params} {e : HostEvent} {b b' : Block} (h : EventEffect p e b b')
    (hreset : e ≠ .reset) (hinit : ∀ w x, eventInstr p e = some (.init w x) → 2 ≤ x.toNat) : b'.initd = b.initd := by
  cases h with
  | reset he => exact absurd he hreset
  | start w x he => exact absurd (Variant.toNat_code_lt x) (hinit w x.code he).not_gt
  | read r he => rfl
  | store r v he hr => simp
  | reject i ec he hi => simp
  | append n he hn hi => rfl
  | finish he hi => rfl

theorem exec_finish_of_uninit {s : State} (hi : s.block.initd = false) :
    exec .finish s = .next (s.setBlock (raiseError .notInitialized s.block)) := by
  rw [← whenInitialized_of_uninit (writeTags s.params.tag128Algo) hi]; rfl

theorem exec_write_of_uninit {s : State} {n : BitVec 4} (hi : s.block.initd = false) (hn : n.toNat ≤ 8) :
    exec (.write n) s = .next (s.setBlock (raiseError .notInitialized s.block)) := by
  simp [exec, execWrite, whenInitialized_of_uninit _ hi, hn.not_gt]

/-- Settles O48: the two rejections command by command, and INITD over a step by the event's effect. -/
theorem uninitRejectsWriteAndFinish : Obligations.UninitRejectsWriteAndFinish := by
  unfold Obligations.UninitRejectsWriteAndFinish
  refine ⟨fun s hi => ⟨exec_finish_of_uninit hi, fun n hn => exec_write_of_uninit hi hn⟩, ?_⟩
  intro s t e rest hp hstep
  obtain ⟨-, heff⟩ := step_eventEffect hp hstep
  refine ⟨?_, ?_, heff.initd_eq⟩
  · rintro rfl
    rw [heff.eq_reset]; rfl
  · rintro ⟨w, x, hinit, hx⟩
    obtain ⟨var, hb⟩ := heff.eq_startInstance hinit hx
    rw [hb]; rfl

/-! ### V0..V3 -/

theorem readReg_with_v (b : Block) (v : HashState) (r : PortReg) : readReg r { b with v := v } = readReg r b := by
  cases r <;> rfl

/-- Settles O20: of the effects that reach V0..V3, a WRITE does so only where it completes a block. -/
theorem hashStateWrittenOnlyByInitWriteReset : Obligations.HashStateWrittenOnlyByInitWriteReset := by
  unfold Obligations.HashStateWrittenOnlyByInitWriteReset
  refine ⟨?_, readReg_with_v⟩
  intro s t e rest _ hp hstep hne
  obtain ⟨-, heff⟩ := step_eventEffect hp hstep
  generalize t.block = b' at heff hne
  cases heff with
  | reset he => exact .inl he
  | start w x he => exact .inr (.inl ⟨w, x.code, he, (Variant.toNat_code_lt x)⟩)
  | append n he hn hi =>
    refine .inr (.inr ⟨n, he, hi, hn, ?_⟩)
    by_contra hshort
    exact hne (absorb_v_of_short (by rw [length_dinSpan _ n hn]; omega))
  | read r he => exact absurd rfl hne
  | store r v he hr => simp at hne
  | reject i ec he hi => simp at hne
  | finish he hi => exact absurd rfl hne

/-! ### STATUS -/

theorem getLsbD_flagWord (f : Bool) (i : Nat) : (flagWord f).getLsbD i = (decide (i = 0) && f) := by
  cases f <;> simp [flagWord]

/-- Bit i of STATUS: each field answers for its own bits (10_state.md R29). -/
theorem getLsbD_statusWord (b : Block) {i : Nat} (hi : i < 64) : (statusWord b).getLsbD i =
    (decide (i = 0) && b.initd || decide (i = 1) && b.err || decide (i = 2) && b.tv ||
      decide (4 ≤ i) && b.ecode.getLsbD (i - 4) || decide (8 ≤ i) && (BitVec.ofNat 3 b.ntail).getLsbD (i - 8) ||
      decide (11 ≤ i) && b.w.bit.getLsbD (i - 11) || decide (12 ≤ i) && b.var.code.getLsbD (i - 12)) := by
  have h1 : (!decide (i < 1) && decide (i - 1 = 0)) = decide (i = 1) := by rw [Bool.eq_iff_iff]; simp; omega
  have h2 : (!decide (i < 2) && decide (i - 2 = 0)) = decide (i = 2) := by rw [Bool.eq_iff_iff]; simp; omega
  have hge (k : Nat) : (!decide (i < k) && decide (i - k < 64)) = decide (k ≤ i) := by
    rw [Bool.eq_iff_iff]; simp; omega
  simp only [statusWord, BitVec.getLsbD_or, BitVec.getLsbD_shiftLeft, BitVec.getLsbD_setWidth, getLsbD_flagWord, hi,
    decide_true, Bool.true_and, ← Bool.and_assoc, h1, h2, hge]

theorem statusWord_flags (b : Block) : (statusWord b).getLsbD 0 = b.initd ∧ (statusWord b).getLsbD 1 = b.err ∧
    (statusWord b).getLsbD 2 = b.tv ∧ (statusWord b).getLsbD 3 = false ∧
    (statusWord b).getLsbD 11 = b.w.bit.getLsbD 0 := by
  refine ⟨?_, ?_, ?_, ?_, ?_⟩
  all_goals
    rw [getLsbD_statusWord b (by omega)]
    simp

/-- At a field's bits every other field is out of range, so the field answers alone. -/
theorem statusWord_fields (b : Block) : (statusWord b).extractLsb' 4 4 = b.ecode ∧
    (statusWord b).extractLsb' 8 3 = BitVec.ofNat 3 b.ntail ∧ (statusWord b).extractLsb' 12 2 = b.var.code ∧
    (statusWord b).extractLsb' 14 50 = 0#50 := by
  refine ⟨?_, ?_, ?_, ?_⟩
  all_goals
    ext j hj
    rw [BitVec.getElem_extractLsb', getLsbD_statusWord b (by omega), ← BitVec.getLsbD_eq_getElem]
    simp (disch := omega) only [decide_eq_false, decide_eq_true, BitVec.getLsbD_of_ge, Nat.add_sub_cancel_left,
      Bool.false_and, Bool.true_and, Bool.and_false, Bool.or_false, Bool.false_or, BitVec.getLsbD_zero]

theorem TagWidth.getLsbD_bit_iff (w : TagWidth) : w.bit.getLsbD 0 = true ↔ w = .tag128 := by cases w <;> decide

theorem Variant.code_eq_zero_iff (x : Variant) : x.code = 0 ↔ x = .sip24 := by cases x <;> decide

theorem Variant.code_eq_one_iff (x : Variant) : x.code = 1 ↔ x = .sip13 := by cases x <;> decide

/-- Settles O16: the fields one by one, NTAIL fitting its 3 bits by the block invariant. -/
theorem statusHoldsEveryField : Obligations.StatusHoldsEveryField := by
  unfold Obligations.StatusHoldsEveryField
  intro s x hinv
  refine ⟨rfl, statusWord s.block, rfl, ?_⟩
  obtain ⟨hinitd, herr, htv, hzero, hw⟩ := statusWord_flags s.block
  obtain ⟨hecode, hntail, hvar, hreserved⟩ := statusWord_fields s.block
  have hshort : (BitVec.ofNat 3 s.block.ntail).toNat = s.block.tail.length := by
    have := hinv.tail_short
    rw [BitVec.toNat_ofNat, Block.ntail]
    omega
  exact ⟨hinitd, herr, htv, hzero, hecode, hinv.ecode_legal, hntail ▸ hshort,
    hw ▸ TagWidth.getLsbD_bit_iff _, hvar ▸ Variant.code_eq_zero_iff _, hvar ▸ Variant.code_eq_one_iff _,
    hreserved⟩

end Sys2Proof.Machine
end

section
/-! The block computes SipHash of the stream (10_state.md R32, 43_streaming.md R77, R81, 44_finalization.md R92, R94):
INIT starts the empty stream, each WRITE extends it, and FINISH leaves the tag of all of it and goes on with it. -/

namespace Sys2Proof.Machine

/-! ### The accepted commands -/

theorem exec_init_code (s : State) (w : TagWidth) (x : Variant) :
    exec (.init w x.code) s = .next (s.setBlock (startInstance s.params.tag128Algo w x s.block)) := by
  simp [exec, execInit]

theorem exec_write_of_initd {s : State} {n : BitVec 4} (hi : s.block.initd = true) (hn : n.toNat ≤ 8) :
    exec (.write n) s = .next (s.setBlock (absorb s.block (dinSpan s.block.din n))) := by
  simp [exec, execWrite, whenInitialized_of_initd _ hi, hn.not_gt]

theorem exec_finish_of_initd {s : State} (hi : s.block.initd = true) :
    exec .finish s = .next (s.setBlock (writeTags s.params.tag128Algo s.block)) := by
  rw [← whenInitialized_of_initd (writeTags s.params.tag128Algo) hi]; rfl

/-- Settles O42, by the laws of Represents for the two commands. -/
theorem writeExtendsTheStream : Obligations.WriteExtendsTheStream := by
  unfold Obligations.WriteExtendsTheStream
  refine ⟨fun s w x => ⟨_, exec_init_code s w x, represents_startInstance _ w x s.block⟩, ?_⟩
  intro s k0 k1 σ n hn hrep
  exact ⟨_, exec_write_of_initd hrep.initd hn, hrep.absorb_span _⟩

/-! ### Sequences of instructions -/

theorem execAll_cons {i : Instr} {s t : State} (is : List Instr) (h : exec i s = .next t) :
    execAll (i :: is) s = execAll is t := by
  simp only [execAll, h]

theorem execAll_append {is : List Instr} (js : List Instr) :
    ∀ {s t : State}, execAll is s = .next t → execAll (is ++ js) s = execAll js t := by
  induction is with
  | nil =>
    intro s t h
    obtain rfl : s = t := by simpa [execAll] using h
    rfl
  | cons i is ih =>
    intro s t h
    cases hx : exec i s with
    | next u =>
      rw [execAll_cons _ hx] at h
      rw [List.cons_append, execAll_cons _ hx, ih h]
    | fault r => simp [execAll, hx] at h
    | refused r => simp [execAll, hx] at h

/-! ### A block that hashes a stream -/

/-- The block hashes by variant x and width w, and has taken the stream σ under the key k0, k1. -/
structure State.Hashing (algo : Tag128Algo) (x : Variant) (w : TagWidth) (k0 k1 : Word) (σ : List Byte) (s : State) :
    Prop where
  algo_eq : s.params.tag128Algo = algo
  var_eq : s.block.var = x
  w_eq : s.block.w = w
  represents : Represents algo k0 k1 σ s.block

variable {algo : Tag128Algo} {x : Variant} {w : TagWidth} {k0 k1 : Word} {σ : List Byte} {s : State}

theorem exec_init_hashing (s : State) (w : TagWidth) (x : Variant) : ∃ t, exec (.init w x.code) s = .next t ∧
    t.Hashing s.params.tag128Algo x w s.block.key0 s.block.key1 [] :=
  ⟨_, exec_init_code s w x, rfl, rfl, rfl, represents_startInstance _ w x s.block⟩

/-- `WR DIN, d` then `WRITE n` append the low n bytes of d. -/
theorem State.Hashing.execAll_write (h : s.Hashing algo x w k0 k1 σ) (d : Word) {n : BitVec 4} (hn : n.toNat ≤ 8) :
    ∃ t, execAll [.wr .din d, .write n] s = .next t ∧ t.Hashing algo x w k0 k1 (σ ++ dinSpan d n) := by
  obtain ⟨halgo, hvar, hw, hrep⟩ := h
  have hstored := hrep.storeReg .din d
  have hwrite := exec_write_of_initd (s := s.setBlock (storeReg .din d s.block)) hstored.initd hn
  refine ⟨(s.setBlock (storeReg .din d s.block)).setBlock (absorb (storeReg .din d s.block) (dinSpan d n)), ?_,
    halgo, hvar, hw, hstored.absorb_span _⟩
  rw [execAll_cons _ (exec_wr_store .din d s (by decide)), execAll_cons _ hwrite]
  rfl

theorem State.Hashing.execAll_writeInstrs (ws : List (Word × BitVec 4)) : ∀ {σ : List Byte} {s : State},
    s.Hashing algo x w k0 k1 σ → (∀ a ∈ ws, a.2.toNat ≤ 8) →
    ∃ t, execAll (writeInstrs ws) s = .next t ∧ t.Hashing algo x w k0 k1 (σ ++ writtenBytes ws) := by
  induction ws with
  | nil => exact fun {σ s} h _ => ⟨s, rfl, by simpa [writtenBytes] using h⟩
  | cons a ws ih =>
    intro σ s h hle
    obtain ⟨u, hu, hu'⟩ := h.execAll_write a.1 (hle a List.mem_cons_self)
    obtain ⟨t, ht, ht'⟩ := ih hu' fun b hb => hle b (List.mem_cons_of_mem a hb)
    have hsplit : writeInstrs (a :: ws) = [.wr .din a.1, .write a.2] ++ writeInstrs ws := rfl
    have hbytes : writtenBytes (a :: ws) = dinSpan a.1 a.2 ++ writtenBytes ws := rfl
    refine ⟨t, ?_, ?_⟩
    · rw [hsplit, execAll_append _ hu, ht]
    · rwa [hbytes, ← List.append_assoc]

/-- FINISH leaves the tag of the stream so far, and the block goes on with that stream. -/
theorem State.Hashing.exec_finish (h : s.Hashing algo x w k0 k1 σ) :
    ∃ t, exec .finish s = .next t ∧ t.Hashing algo x w k0 k1 σ ∧ t.block.tv = true ∧
      (t.block.tag0, t.block.tag1) = sipHashTags algo x w k0 k1 σ := by
  obtain ⟨rfl, rfl, rfl, hrep⟩ := h
  refine ⟨_, exec_finish_of_initd hrep.initd, ⟨rfl, rfl, rfl, hrep.writeTags⟩, rfl, ?_⟩
  have hfinal : finalState s.block = compress (streamFold s.block.var.cRounds
      (initState s.params.tag128Algo k0 k1 s.block.w) σ) (padBlock (streamTail σ) (BitVec.ofNat 64 σ.length))
      s.block.var.cRounds := by
    rw [finalState, hrep.v, hrep.tail, hrep.len]
  simp only [State.setBlock_block, writeTags, hfinal, sipHashTags]

theorem State.Hashing.execAll_writes_finish (h : s.Hashing algo x w k0 k1 σ) {ws : List (Word × BitVec 4)}
    (hle : ∀ a ∈ ws, a.2.toNat ≤ 8) :
    ∃ t, execAll (writeInstrs ws ++ [.finish]) s = .next t ∧ t.Hashing algo x w k0 k1 (σ ++ writtenBytes ws) ∧
      t.block.tv = true ∧ (t.block.tag0, t.block.tag1) = sipHashTags algo x w k0 k1 (σ ++ writtenBytes ws) := by
  obtain ⟨u, hu, hu'⟩ := h.execAll_writeInstrs ws hle
  obtain ⟨t, ht, ht'⟩ := hu'.exec_finish
  refine ⟨t, ?_, ht'⟩
  rw [execAll_append _ hu, execAll_cons _ ht]; rfl

end Sys2Proof.Machine
end

section
/-! The headline of the stream, from the laws of a block that hashes a stream. -/

namespace Sys2Proof.Machine

/-- Settles O43: INIT starts the empty stream, and each of the two runs of WRITEs and FINISH goes on with its stream. -/
theorem tagIsSipHashOfTheStream : Obligations.TagIsSipHashOfTheStream := by
  unfold Obligations.TagIsSipHashOfTheStream
  intro s w x ws₁ ws₂ hle₁ hle₂
  obtain ⟨r, hr, hr'⟩ := exec_init_hashing s w x
  obtain ⟨t, ht, hashing, htv, htag⟩ := hr'.execAll_writes_finish hle₁
  obtain ⟨u, hu, -, hutv, hutag⟩ := hashing.execAll_writes_finish hle₂
  refine ⟨t, u, ?_, hu, htv, hutv, htag, hutag⟩
  rw [List.cons_append, execAll_cons _ hr, ht]

end Sys2Proof.Machine
end

section
/-! Only LEN[7:0] reaches a result (10_state.md R17): every effect on the block commutes with a change of LEN's upper
56 bits. -/

namespace Sys2Proof.Machine

def Block.setLen (b : Block) (len : Word) : Block := { b with len := len }

def State.setLen (s : State) (len : Word) : State := s.setBlock (s.block.setLen len)

/-- Two values of LEN agree in the byte that FINISH reads. -/
def SameLowByte (len len' : Word) : Prop := len.extractLsb' 0 8 = len'.extractLsb' 0 8

theorem sameLowByte_iff {len len' : Word} : SameLowByte len len' ↔ len.toNat % 256 = len'.toNat % 256 := by
  rw [SameLowByte, ← BitVec.toNat_inj]; simp [BitVec.extractLsb'_toNat]

theorem SameLowByte.add {len len' : Word} (h : SameLowByte len len') (k : Word) : SameLowByte (len + k) (len' + k) := by
  rw [sameLowByte_iff] at *
  simp only [BitVec.toNat_add]
  omega

/-- PadBlock takes the low byte of LEN only (44_finalization.md R85). -/
theorem SameLowByte.padBlock_eq {len len' : Word} (h : SameLowByte len len') (tail : List Byte) :
    padBlock tail len = padBlock tail len' := by
  have hbyte : len.setWidth 8 = len'.setWidth 8 := by
    rw [sameLowByte_iff] at h
    rw [← BitVec.toNat_inj]
    simpa using h
  simp only [padBlock, hbyte]

/-- The map cannot tell two blocks apart that differ in LEN's upper bits, and its results differ in no more. -/
def LenBlind (f : Block → Block) : Prop :=
  ∀ (b : Block) (len : Word), SameLowByte len b.len →
    ∃ len', SameLowByte len' (f b).len ∧ f (b.setLen len) = (f b).setLen len'

theorem readReg_setLen (r : PortReg) (b : Block) (len : Word) : readReg r (b.setLen len) = readReg r b := by
  cases r <;> rfl

theorem lenBlind_storeReg (r : PortReg) (v : Word) : LenBlind (storeReg r v) :=
  fun _ len h => by cases r <;> exact ⟨len, h, rfl⟩

theorem lenBlind_raiseError (ec : ErrorCode) : LenBlind (raiseError ec) :=
  fun b len h => ⟨len, by simpa using h, by simp only [raiseError_eq]; rfl⟩

theorem lenBlind_startInstance (algo : Tag128Algo) (w : TagWidth) (x : Variant) :
    LenBlind (startInstance algo w x) :=
  fun _ _ _ => ⟨0, rfl, rfl⟩

theorem lenBlind_absorb_din (n : BitVec 4) : LenBlind fun b => absorb b (dinSpan b.din n) :=
  fun b len h => ⟨len + BitVec.ofNat 64 (dinSpan b.din n).length, h.add _, rfl⟩

theorem lenBlind_writeTags (algo : Tag128Algo) : LenBlind (writeTags algo) := by
  intro b len h
  have hfinal : finalState (b.setLen len) = finalState b := by
    simp only [finalState, Block.setLen, h.padBlock_eq]
  exact ⟨len, h, by simp only [writeTags, hfinal]; rfl⟩

theorem LenBlind.whenInitialized {f : Block → Block} (hf : LenBlind f) : LenBlind (whenInitialized f) := by
  intro b len h
  cases hi : b.initd with
  | true =>
    have hi' : (b.setLen len).initd = true := hi
    rw [whenInitialized_of_initd _ hi, whenInitialized_of_initd _ hi']
    exact hf b len h
  | false =>
    have hi' : (b.setLen len).initd = false := hi
    rw [whenInitialized_of_uninit _ hi, whenInitialized_of_uninit _ hi']
    exact lenBlind_raiseError _ b len h

theorem lenBlind_commandEffect (algo : Tag128Algo) (c : Command) : LenBlind (commandEffect algo c) := by
  intro b len h
  cases c with
  | init w var =>
    cases hx : Variant.ofCode var with
    | some x => simpa only [commandEffect, hx] using lenBlind_startInstance algo w x b len h
    | none => simpa only [commandEffect, hx] using lenBlind_raiseError .reservedField b len h
  | write n =>
    by_cases hn : 8 < n.toNat
    · simpa only [commandEffect, hn, if_true] using lenBlind_raiseError .reservedField b len h
    · simpa only [commandEffect, hn, if_false] using (lenBlind_absorb_din n).whenInitialized b len h
  | finish => exact (lenBlind_writeTags algo).whenInitialized b len h

/-- An instruction that maps the block LEN-blindly, under the parameters of `s`, completes alike from both states. -/
theorem LenBlind.exec_setLen {f : Block → Block} (hf : LenBlind f) {i : Instr} {s t : State} {len : Word}
    (hmap : ∀ u : State, u.params = s.params → exec i u = .next (u.setBlock (f u.block)))
    (h : SameLowByte len s.block.len) (hx : exec i s = .next t) :
    ∃ len', SameLowByte len' t.block.len ∧ exec i (s.setLen len) = .next (t.setLen len') := by
  rw [hmap s rfl] at hx
  injection hx with hx
  subst hx
  obtain ⟨len', hlow, heq⟩ := hf s.block len h
  refine ⟨len', hlow, ?_⟩
  rw [hmap (s.setLen len) rfl, State.setLen, State.setBlock_block, heq]; rfl

/-- Every instruction is a read or a LEN-blind map of the block. -/
theorem exec_setLen (i : Instr) {s t : State} {len : Word} (h : SameLowByte len s.block.len) (hx : exec i s = .next t) :
    ∃ len', SameLowByte len' t.block.len ∧ exec i (s.setLen len) = .next (t.setLen len') := by
  obtain ⟨r, rfl, -⟩ | ⟨r, v, rfl, hr, -⟩ | ⟨v, e, rfl, hd, -⟩ | ⟨c, hc, -⟩ := exec_cases i s
  · rw [exec_rd] at hx
    injection hx with hx
    subst hx
    refine ⟨len, h, ?_⟩
    rw [exec_rd, State.setLen, State.setBlock_block, readReg_setLen]; rfl
  · exact (lenBlind_storeReg r v).exec_setLen (fun u _ => exec_wr_store r v u hr) h hx
  · exact (lenBlind_raiseError _).exec_setLen (fun u _ => exec_wr_cmd_error u hd) h hx
  · refine (lenBlind_commandEffect s.params.tag128Algo c).exec_setLen (fun u hu => ?_) h hx
    rw [← hu]
    obtain rfl | ⟨v, rfl, hd⟩ := hc
    · exact exec_command c u
    · exact (exec_wr_cmd_ok u hd).trans (exec_command c u)

theorem step_of_transaction {s : State} {e : HostEvent} {rest : List HostEvent} {desc : BitVec 4} {data : Word}
    (hp : s.host.pending = e :: rest) (ht : transactionOf s.params e = .ok (some (.port desc data))) :
    step s = exec (decodePort desc data) (s.setPending rest) := by
  rw [step_cons hp]
  simp only [perform, State.setPending_params, ht, runCode]

theorem step_setLen {s t : State} {len : Word} (h : SameLowByte len s.block.len) (hstep : step s = .next t) :
    ∃ len', SameLowByte len' t.block.len ∧ step (s.setLen len) = .next (t.setLen len') := by
  obtain ⟨hp, rfl⟩ | ⟨rest, hp, rfl⟩ | ⟨e, rest, desc, data, hp, ht, hx⟩ := step_next_cases hstep
  · exact ⟨len, h, step_nil hp⟩
  · exact ⟨0, rfl, step_cons (s := s.setLen len) hp⟩
  · obtain ⟨len', hlow, hx'⟩ := exec_setLen (decodePort desc data) (s := s.setPending rest) h hx
    exact ⟨len', hlow, (step_of_transaction (s := s.setLen len) hp ht).trans hx'⟩

/-- Settles O49: setLen is the record update of the statement. -/
theorem onlyLowByteOfLenMatters : Obligations.OnlyLowByteOfLenMatters := by
  unfold Obligations.OnlyLowByteOfLenMatters
  exact fun _ _ _ h hstep => step_setLen h hstep

end Sys2Proof.Machine
end

section
/-! One event of the host (20_memory.md R45): a step takes it from the queue and performs it whole, and only a bus access
that is no port transaction stops it. -/

namespace Sys2Proof.Machine

/-- Every port descriptor is legal (30_encoding.md R49). -/
theorem wellFormed_decodePort (desc : BitVec 4) (data : Word) : WellFormed (decodePort desc data) := by
  unfold decodePort
  split <;> rfl

theorem exec_keeps_params_pending (i : Instr) (s : State) :
    ∃ t, exec i s = .next t ∧ t.params = s.params ∧ t.host.pending = s.host.pending := by
  obtain ⟨r, -, hx⟩ | ⟨r, v, -, -, hx⟩ | ⟨v, e, -, -, hx⟩ | ⟨c, -, hx⟩ := exec_cases i s
  all_goals exact ⟨_, hx, rfl, rfl⟩

def HostEvent.IsBusAccess (e : HostEvent) : Prop :=
  (∃ addr size, e = .busRead addr size) ∨ (∃ addr bytes, e = .busWrite addr bytes)

/-- An event completes and leaves the parameters and the queue alone, or it is a bus access and is refused. -/
theorem perform_cases (e : HostEvent) (s : State) :
    (∃ t, perform e s = .next t ∧ t.params = s.params ∧ t.host.pending = s.host.pending) ∨
    (∃ r, perform e s = .refused r ∧ e.IsBusAccess) := by
  cases e with
  | port desc data => exact .inl (exec_keeps_params_pending (decodePort desc data) s)
  | reset => exact .inl ⟨_, perform_reset s, rfl, rfl⟩
  | busRead addr size =>
    cases hb : busTarget s.params.base addr size with
    | ok r => exact .inl (perform_busRead_ok hb ▸ exec_keeps_params_pending (.rd r) s)
    | error r => exact .inr ⟨r, perform_busRead_error hb, .inl ⟨addr, size, rfl⟩⟩
  | busWrite addr bytes =>
    cases hb : busTarget s.params.base addr bytes.length with
    | ok r => exact .inl (perform_busWrite_ok hb ▸ exec_keeps_params_pending (.wr r _) s)
    | error r => exact .inr ⟨r, perform_busWrite_error hb, .inr ⟨addr, bytes, rfl⟩⟩

/-- Settles O10, by the two outcomes of an event on the state it has been taken from. -/
theorem stepTakesOneEvent : Obligations.StepTakesOneEvent := by
  unfold Obligations.StepTakesOneEvent
  intro s e rest hp
  rw [step_cons hp]
  obtain ⟨t, ht, hparams, hpending⟩ | ⟨r, hr, hbus⟩ := perform_cases e (s.setPending rest)
  · rw [ht]
    refine ⟨?_, nofun, nofun⟩
    rintro _ ⟨⟩
    exact ⟨hpending, hparams⟩
  · rw [hr]
    exact ⟨nofun, nofun, fun _ _ => hbus⟩

/-- Settles O5: a descriptor decodes whatever its bits, and the event is performed as the decoded instruction. -/
theorem stepRunsDecodedTransaction : Obligations.StepRunsDecodedTransaction := by
  unfold Obligations.StepRunsDecodedTransaction
  intro s desc data rest hp
  exact ⟨decodePort desc data, rfl, wellFormed_decodePort desc data, by rw [step_cons hp, perform_port]⟩

end Sys2Proof.Machine
end

section
/-! The bridge of a byte-addressed bus (20_memory.md R36): which accesses name a register, and what a step on an access
does. -/

namespace Sys2Proof.Machine

theorem busTarget_register {base : Nat} (hbase : base % 8 = 0) (i : BitVec 3) :
    busTarget base (base + 8 * i.toNat) 8 = .ok (.ofIndex i) := by
  have hi := i.isLt
  have hoffset : (base + 8 * i.toNat - base) / 8 = i.toNat := by omega
  rw [busTarget, if_pos (by omega), hoffset, BitVec.ofNat_toNat, BitVec.setWidth_eq]

/-- An access that touches the block names a register only if it is 8 bytes wide, and it and BASE are aligned. -/
theorem busTarget_undefined {base addr size : Nat} (hlow : addr < base + 64) (hhigh : base < addr + size)
    (h : size ≠ 8 ∨ addr % 8 ≠ 0 ∨ base % 8 ≠ 0) : busTarget base addr size = .error .busAccessUndefined := by
  rw [busTarget, if_neg (by omega), if_neg (by omega)]

variable {s : State} {rest : List HostEvent} {addr size : Nat} {bytes : List Byte}

theorem step_busRead_register {i : BitVec 3} (hbase : s.params.base % 8 = 0)
    (hp : s.host.pending = .busRead (s.params.base + 8 * i.toNat) 8 :: rest) :
    step s = exec (.rd (.ofIndex i)) (s.setPending rest) := by
  rw [step_cons hp, perform_busRead_ok (s := s.setPending rest) (busTarget_register hbase i)]

theorem step_busWrite_register {i : BitVec 3} (hbase : s.params.base % 8 = 0) (hlen : bytes.length = 8)
    (hp : s.host.pending = .busWrite (s.params.base + 8 * i.toNat) bytes :: rest) :
    step s = exec (.wr (.ofIndex i) (busWord s.params.busOrder bytes)) (s.setPending rest) := by
  have htarget : busTarget s.params.base (s.params.base + 8 * i.toNat) bytes.length = .ok (.ofIndex i) := by
    rw [hlen, busTarget_register hbase]
  rw [step_cons hp, perform_busWrite_ok (s := s.setPending rest) htarget, State.setPending_params]

theorem step_busRead_undefined (hlow : addr < s.params.base + 64) (hhigh : s.params.base < addr + size)
    (h : size ≠ 8 ∨ addr % 8 ≠ 0 ∨ s.params.base % 8 ≠ 0) (hp : s.host.pending = .busRead addr size :: rest) :
    step s = .refused .busAccessUndefined := by
  rw [step_cons hp, perform_busRead_error (s := s.setPending rest) (busTarget_undefined hlow hhigh h)]

theorem step_busWrite_undefined (hlow : addr < s.params.base + 64) (hhigh : s.params.base < addr + bytes.length)
    (h : bytes.length ≠ 8 ∨ addr % 8 ≠ 0 ∨ s.params.base % 8 ≠ 0)
    (hp : s.host.pending = .busWrite addr bytes :: rest) : step s = .refused .busAccessUndefined := by
  rw [step_cons hp, perform_busWrite_error (s := s.setPending rest) (busTarget_undefined hlow hhigh h)]

end Sys2Proof.Machine
end

section
/-! The statements about the byte-addressed bus (20_memory.md R36, R42). -/

namespace Sys2Proof.Machine

/-- Settles O22: an aligned access names its register, and any other at the block names none. -/
theorem busAccessIsOnePortTransaction : Obligations.BusAccessIsOnePortTransaction := by
  unfold Obligations.BusAccessIsOnePortTransaction
  intro s rest i hbase
  refine ⟨step_busRead_register hbase, fun bytes => step_busWrite_register hbase, ?_, ?_⟩
  · exact fun addr size hlow hhigh h => step_busRead_undefined hlow hhigh (by omega)
  · exact fun addr bytes hlow hhigh h => step_busWrite_undefined hlow hhigh (by omega)

/-- Settles O51: BASE itself is the misaligned part, so no access names a register. -/
theorem busAtUnalignedBaseIsRefused : Obligations.BusAtUnalignedBaseIsRefused := by
  unfold Obligations.BusAtUnalignedBaseIsRefused
  intro s rest addr hbase hlow
  exact ⟨fun size hhigh => step_busRead_undefined hlow hhigh (.inr (.inr hbase)),
    fun bytes hhigh => step_busWrite_undefined hlow hhigh (.inr (.inr hbase))⟩

/-! ### The byte order -/

/-- The lane of a register that the byte at offset j of a bus access stands in (R42). -/
def busLane (order : BusOrder) (j : Nat) : Nat :=
  match order with
  | .little => j
  | .big => 7 - j

theorem byteLane_busLane_little (v : Word) (j : Nat) : byteLane v (busLane .little j) = v.extractLsb' (8 * j) 8 := rfl

theorem byteLane_busLane_big (v : Word) (j : Nat) : byteLane v (busLane .big j) = v.extractLsb' (56 - 8 * j) 8 := by
  simp only [busLane, byteLane, Nat.mul_sub]

theorem length_busBytes (order : BusOrder) (v : Word) : (busBytes order v).length = 8 := by
  cases order <;> simp [busBytes]

theorem getElem?_busBytes (order : BusOrder) (v : Word) {j : Nat} (hj : j < 8) :
    (busBytes order v)[j]? = some (byteLane v (busLane order j)) := by
  cases order with
  | little => exact getElem?_bytesLe v j hj
  | big =>
    rw [busBytes, List.getElem?_reverse (by simpa using hj), length_bytesLe]
    exact getElem?_bytesLe v (7 - j) (by omega)

theorem byteLane_busWord (order : BusOrder) {bytes : List Byte} (hlen : bytes.length = 8) {j : Nat} (hj : j < 8) :
    some (byteLane (busWord order bytes) (busLane order j)) = bytes[j]? := by
  have hget : bytes[j]? = some (bytes.getD j 0) := by simp [hlen, hj]
  cases order with
  | little => rw [hget, busWord, busLane, byteLane_le64 bytes hj]
  | big =>
    have hreverse : bytes.reverse[7 - j]? = bytes[j]? := by
      rw [List.getElem?_reverse (by omega), hlen]
      congr 1
      omega
    rw [busWord, busLane, byteLane_le64 _ (by omega), List.getD_eq_getElem?_getD, hreverse, hget, Option.getD_some]

/-- Settles O23: a write and a read place byte j in the same lane, and the bridge returns the value RD does. -/
theorem busOrderPlacesEveryByte : Obligations.BusOrderPlacesEveryByte := by
  unfold Obligations.BusOrderPlacesEveryByte
  refine ⟨fun bytes v j hlen hj => ?_, fun s rest i hbase hp => ?_⟩
  · have hword (order) := byteLane_busWord order hlen hj
    have hbytes (order) := getElem?_busBytes order v hj
    simp only [← byteLane_busLane_little, ← byteLane_busLane_big]
    exact ⟨hword .little, hword .big, hbytes .little, hbytes .big⟩
  · have hread := (step_busRead_register hbase hp).trans (exec_rd _ _)
    refine ⟨_, busBytes s.params.busOrder (readReg (.ofIndex i) s.block), hread, rfl, rfl, length_busBytes _ _, ?_⟩
    intro j hj
    rw [getElem?_busBytes _ _ hj]
    cases s.params.busOrder with
    | little => exact congrArg some (byteLane_busLane_little _ j)
    | big => exact congrArg some (byteLane_busLane_big _ j)

end Sys2Proof.Machine
end

section
/-! The encodings (30_encoding.md R49 to R58): the decoder undoes the encoder on well-formed instructions, and accepts no
word but the 14 the encoder gives. -/

namespace Sys2Proof

/-! ### Port descriptors -/

theorem decodePort_rdDescriptor (r : PortReg) (data : Word) : decodePort (rdDescriptor r) data = .rd r := by
  cases r <;> rfl

theorem decodePort_wrDescriptor (r : PortReg) (data : Word) : decodePort (wrDescriptor r) data = .wr r data := by
  cases r <;> rfl

/-! ### Command words -/

/-- The operands of a command take few values, so each command's fields are read back by computation. -/
theorem decodeCommand_encodeCommand {c : Command} (h : WellFormed c.toInstr) :
    decodeCommand (encodeCommand c) = .ok c := by
  cases c with
  | init w var => cases w <;> revert var <;> decide
  | write n => revert n; decide
  | finish => decide

theorem initWord_fields {v : Word} (hop : v.toNat % 16 = 1) (hlt : v.toNat < 128) :
    initWord (.ofBit (wField v)) (varField v) = v := by
  rw [← BitVec.toNat_inj, toNat_initWord, toNat_varField, wField_eq_decide]
  by_cases hw : v.toNat / 16 % 2 = 1
  · simp only [hw, TagWidth.ofBit, decide_true, if_true]; omega
  · simp [hw, TagWidth.ofBit]; omega

theorem writeWord_field {v : Word} (hop : v.toNat % 16 = 2) (hlt : v.toNat < 256) : writeWord (nField v) = v := by
  rw [← BitVec.toNat_inj, toNat_writeWord, toNat_nField]
  omega

/-- The decoder drops no bit: the word is rebuilt from the fields it read. -/
theorem wellFormed_and_eq_encodeCommand {v : Word} {c : Command} (h : decodeCommand v = .ok c) :
    WellFormed c.toInstr ∧ v = encodeCommand c := by
  rw [decodeCommand_eq] at h
  split_ifs at h with hinit hinitReserved hwrite hwriteReserved hfinish hfinishReserved
  all_goals obtain rfl := Except.ok.inj h
  · have hvar : (varField v).toNat < 2 := by rw [toNat_varField]; omega
    exact ⟨decide_eq_true hvar, (initWord_fields hinit (by omega)).symm⟩
  · have hn : (nField v).toNat ≤ 8 := by rw [toNat_nField]; omega
    exact ⟨decide_eq_true hn, (writeWord_field hwrite (by omega)).symm⟩
  · refine ⟨rfl, ?_⟩
    rw [← BitVec.toNat_inj, encodeCommand, toNat_finishWord]
    omega

/-- Settles O2: the two directions of the round trip. -/
theorem decodedWordIsTheEncoding : Obligations.DecodedWordIsTheEncoding := by
  unfold Obligations.DecodedWordIsTheEncoding
  intro v c
  refine ⟨wellFormed_and_eq_encodeCommand, ?_⟩
  rintro ⟨hwf, rfl⟩
  exact decodeCommand_encodeCommand hwf

theorem decode_command_encodeCommand {c : Command} (h : WellFormed c.toInstr) :
    decode (.command (encodeCommand c)) = .ok c.toInstr := by
  simp only [decode, decodeCommand_encodeCommand h, Except.map]

/-- Settles O1, row by row: a descriptor and a command word are each read back. -/
theorem decodeOfEncode : Obligations.DecodeOfEncode := by
  unfold Obligations.DecodeOfEncode
  intro i hwf
  cases i with
  | rd r => exact congrArg Except.ok (decodePort_rdDescriptor r 0)
  | wr r v => exact congrArg Except.ok (decodePort_wrDescriptor r v)
  | init w var => exact decode_command_encodeCommand (c := .init w var) hwf
  | write n => exact decode_command_encodeCommand (c := .write n) hwf
  | finish => exact decode_command_encodeCommand (c := .finish) hwf

/-- Settles O4: one port transaction of each direction and one word of each command, computed. -/
theorem sampleEncodingsDecode : Obligations.SampleEncodingsDecode := by
  unfold Obligations.SampleEncodingsDecode
  decide

end Sys2Proof
end

section
/-! The reserved command words (30_encoding.md R58), and the step that runs an encoded instruction (R50). -/

namespace Sys2Proof.Machine

/-! ### The 14 legal words -/

/-- The commands of 30_encoding.md R60, in the order of the legal words: four INITs, nine WRITEs and FINISH. -/
def legalCommands : List Command :=
  [.init .tag64 0, .init .tag128 0, .init .tag64 1, .init .tag128 1] ++
    (List.range 9).map (fun n => .write (BitVec.ofNat 4 n)) ++ [.finish]

theorem map_encodeCommand_legalCommands : legalCommands.map encodeCommand = legalCommandWords := by decide

theorem mem_legalCommands_iff (c : Command) : c ∈ legalCommands ↔ WellFormed c.toInstr := by
  cases c with
  | init w var => cases w <;> revert var <;> decide
  | write n => revert n; decide
  | finish => decide

theorem decodeCommand_accepts_iff (v : Word) : (∃ c, decodeCommand v = .ok c) ↔ v ∈ legalCommandWords := by
  rw [← map_encodeCommand_legalCommands, List.mem_map]
  constructor
  · rintro ⟨c, hc⟩
    obtain ⟨hwf, rfl⟩ := wellFormed_and_eq_encodeCommand hc
    exact ⟨c, (mem_legalCommands_iff c).2 hwf, rfl⟩
  · rintro ⟨c, hc, rfl⟩
    exact ⟨c, decodeCommand_encodeCommand ((mem_legalCommands_iff c).1 hc)⟩

/-! ### The codes of the other words -/

theorem decodeCommand_eq_opcode_iff (v : Word) :
    decodeCommand v = .error .opcode ↔ opField v ∉ [0x1, 0x2, 0x3] := by
  unfold decodeCommand
  split_ifs with h1 _ h2 _ h3 _
  · simp [h1]
  · simp [h1]
  · simp [h2]
  · simp [h2]
  · simp [h3]
  · simp [h3]
  · simpa using ⟨h1, h2, h3⟩

/-- A word is accepted, or has a reserved opcode, or a reserved field, and no two of these. -/
theorem decodeCommand_eq_field_iff (v : Word) :
    decodeCommand v = .error .field ↔ opField v ∈ [0x1, 0x2, 0x3] ∧ v ∉ legalCommandWords := by
  have hop : opField v ∈ [0x1, 0x2, 0x3] ↔ decodeCommand v ≠ .error .opcode := by
    rw [Ne, decodeCommand_eq_opcode_iff, not_not]
  rw [hop, ← decodeCommand_accepts_iff]
  cases hd : decodeCommand v with
  | ok c => simp
  | error e => cases e <;> simp

theorem exec_wr_cmd_reserved (s : State) {v : Word} (hv : v ∉ legalCommandWords) :
    exec (.wr .cmd v) s = .next (s.setBlock (raiseError
      (if opField v ∈ [0x1, 0x2, 0x3] then .reservedField else .reservedOpcode) s.block)) := by
  by_cases hop : opField v ∈ [0x1, 0x2, 0x3]
  · rw [exec_wr_cmd_error s ((decodeCommand_eq_field_iff v).2 ⟨hop, hv⟩), if_pos hop]; rfl
  · rw [exec_wr_cmd_error s ((decodeCommand_eq_opcode_iff v).2 hop), if_neg hop]; rfl

/-- Settles O3, from the decoder's answer to each word and from what the error action does. -/
theorem reservedWordsAreRejected : Obligations.ReservedWordsAreRejected := by
  unfold Obligations.ReservedWordsAreRejected
  intro s v
  refine ⟨decodeCommand_eq_opcode_iff v, decodeCommand_eq_field_iff v, decodeCommand_accepts_iff v, ?_,
    fun desc => ⟨decodePort desc v, rfl⟩⟩
  intro hv
  rw [exec_wr_cmd_reserved s hv, raiseError_eq]
  by_cases hop : opField v ∈ [0x1, 0x2, 0x3]
  · simp only [if_pos hop]; rfl
  · simp only [if_neg hop]; rfl

/-! ### A step on an encoded instruction -/

theorem perform_command {c : Command} (h : WellFormed c.toInstr) (s : State) :
    perform (.port (wrDescriptor .cmd) (encodeCommand c)) s = exec c.toInstr s := by
  rw [perform_port, decodePort_wrDescriptor, exec_wr_cmd_ok s (decodeCommand_encodeCommand h)]

theorem perform_encode {i : Instr} (h : WellFormed i) (s : State) : perform (eventOf (encode i)) s = exec i s := by
  cases i with
  | rd r => rw [encode, eventOf, perform_port, decodePort_rdDescriptor]
  | wr r v => rw [encode, eventOf, perform_port, decodePort_wrDescriptor]
  | init w var => exact perform_command (c := .init w var) h s
  | write n => exact perform_command (c := .write n) h s
  | finish => exact perform_command (c := .finish) h s

/-- Settles O6: the event taken from the queue performs the instruction it encodes. -/
theorem stepRunsEncodedInstruction : Obligations.StepRunsEncodedInstruction := by
  unfold Obligations.StepRunsEncodedInstruction
  intro s i rest hwf hp
  rw [step_cons hp, perform_encode hwf]

end Sys2Proof.Machine
end

section
/-! Runs of host events: how the steps on a list of events compose, whatever waits behind it (20_memory.md R46). -/

namespace Sys2Proof.Machine

/-- The steps on the events lead from `s` to `t`, whatever events wait behind them, and take exactly these events. -/
def Runs (es : List HostEvent) (s t : State) : Prop :=
  ∀ rest, runSteps es.length (s.setPending (es ++ rest)) = .next (t.setPending rest)

variable {s t u : State} {es fs : List HostEvent}

theorem runSteps_add {m : Nat} (n : Nat) : ∀ {s : State}, runSteps m s = .next t →
    runSteps (m + n) s = runSteps n t := by
  induction m with
  | zero =>
    intro s h
    obtain rfl : s = t := by simpa [runSteps] using h
    rw [Nat.zero_add]
  | succ m ih =>
    intro s h
    rw [Nat.succ_add, runSteps]
    rw [runSteps] at h
    cases hs : step s with
    | next u => rw [hs] at h; exact ih h
    | fault r => rw [hs] at h; cases h
    | refused r => rw [hs] at h; cases h

theorem runs_nil (s : State) : Runs [] s s := fun _ => rfl

theorem Runs.append (h : Runs es s t) (h' : Runs fs t u) : Runs (es ++ fs) s u := by
  intro rest
  rw [List.length_append, List.append_assoc, runSteps_add _ (h (fs ++ rest))]
  exact h' rest

/-- No instruction reads or writes the queue. -/
theorem exec_setPending {i : Instr} (h : exec i s = .next t) (es : List HostEvent) :
    exec i (s.setPending es) = .next (t.setPending es) := by
  obtain ⟨r, rfl, hx⟩ | ⟨r, v, rfl, hr, hx⟩ | ⟨v, e, rfl, hd, hx⟩ | ⟨c, hc, hx⟩ := exec_cases i s
  all_goals
    rw [h] at hx
    injection hx with hx
    subst hx
  · rfl
  · exact exec_wr_store r v _ hr
  · exact exec_wr_cmd_error _ hd
  · obtain rfl | ⟨v, rfl, hd⟩ := hc
    · exact exec_command c _
    · exact (exec_wr_cmd_ok _ hd).trans (exec_command c _)

/-- The event of an encoded instruction runs it. -/
theorem runs_encode {i : Instr} (hwf : WellFormed i) (h : exec i s = .next t) : Runs [eventOf (encode i)] s t := by
  intro rest
  have hstep : step (s.setPending (eventOf (encode i) :: rest)) = .next (t.setPending rest) := by
    rw [step_cons rfl, perform_encode hwf, State.setPending_setPending, exec_setPending h]
  simp only [List.length_singleton, List.singleton_append, runSteps, hstep]

/-! ### The assembler's transactions and commands (30_encoding.md R60) -/

theorem runs_asmRd (r : PortReg) (s : State) : Runs [asmRd r] s (s.returnData (readReg r s.block)) :=
  runs_encode (i := .rd r) rfl (exec_rd r s)

theorem runs_asmWr (r : PortReg) (v : Word) (s : State) (hr : r ≠ .cmd) :
    Runs [asmWr r v] s (s.setBlock (storeReg r v s.block)) :=
  runs_encode (i := .wr r v) rfl (exec_wr_store r v s hr)

theorem runs_asmInit (x : Variant) (w : TagWidth) (s : State) :
    Runs [asmInit x w] s (s.setBlock (startInstance s.params.tag128Algo w x s.block)) :=
  runs_encode (i := .init w x.code) (decide_eq_true (Variant.toNat_code_lt x)) (exec_init_code s w x)

theorem runs_asmWrite {n : Nat} (hn : n ≤ 8) (hi : s.block.initd = true) :
    Runs [asmWrite n] s (s.setBlock (absorb s.block ((bytesLe s.block.din).take n))) := by
  have hcount : (BitVec.ofNat 4 n).toNat = n := by rw [BitVec.toNat_ofNat]; omega
  have hx := exec_write_of_initd (n := BitVec.ofNat 4 n) hi (by omega)
  rw [dinSpan, hcount] at hx
  exact runs_encode (i := .write (BitVec.ofNat 4 n)) (decide_eq_true (by omega)) hx

end Sys2Proof.Machine
end

section
/-! The pseudo-instruction ABSORB (30_encoding.md R61): its chunks, appended one by one, are the whole span (43_streaming.md
R81). -/

namespace Sys2Proof.Machine

/-! ### Appending span after span -/

theorem absorb_nil {b : Block} (h : b.tail.length ≤ 7) : absorb b [] = b := by
  rw [absorb_eq_absorbChunks b [] h, List.append_nil, absorbChunks_short _ _ _ (by omega)]
  simp

theorem absorb_append {b : Block} (h : b.tail.length ≤ 7) (s₁ s₂ : List Byte) :
    absorb b (s₁ ++ s₂) = absorb (absorb b s₁) s₂ := by
  rw [absorb_eq_absorbChunks _ s₂ (length_absorb_tail s₁ h), absorb_eq_absorbChunks b s₁ h,
    absorb_eq_absorbChunks b _ h, ← List.append_assoc, absorbChunks_append, List.length_append, BitVec.ofNat_add,
    BitVec.add_assoc]

/-! ### The chunks of a span -/

/-- A span of up to 8 bytes, stored in DIN, is the span of a WRITE of its length. -/
theorem take_bytesLe_le64 {ch : List Byte} (h : ch.length ≤ 8) : (bytesLe (le64 ch)).take ch.length = ch := by
  refine List.ext_getElem (by simpa using h) fun j hj hj' => ?_
  have hlane : j < 8 := by omega
  rw [List.getElem_take, ← Option.some.injEq, ← List.getElem?_eq_getElem, getElem?_bytesLe _ j hlane,
    byteLane_le64 ch hlane, List.getD_eq_getElem _ _ hj']

theorem pseudoChunks_block {m : List Byte} (h : m.length = 8) (rest : List Byte) :
    pseudoChunks (m ++ rest) = pseudoChunk m ++ pseudoChunks rest := by
  match m, h with
  | [_, _, _, _, _, _, _, _], _ => rfl

theorem pseudoChunks_short {ch : List Byte} (hne : ch ≠ []) (h : ch.length < 8) : pseudoChunks ch = pseudoChunk ch := by
  refine pseudoChunks.eq_3 ch ?_ hne
  rintro _ _ _ _ _ _ _ _ rest rfl
  simp at h
  omega

/-- A span is shorter than a chunk, or a chunk and a span. -/
theorem chunk_induction {P : List Byte → Prop} (short : ∀ s, s.length < 8 → P s)
    (chunk : ∀ m rest, m.length = 8 → P rest → P (m ++ rest)) (s : List Byte) : P s := by
  induction hn : s.length using Nat.strong_induction_on generalizing s with
  | _ n ih =>
    by_cases h : s.length < 8
    · exact short s h
    · rw [← List.take_append_drop 8 s]
      exact chunk _ _ (by simp; omega) (ih (s.drop 8).length (by simp; omega) _ rfl)

/-- What the expansion of ABSORB leaves in DIN, from the value `d`: the last chunk, if there is one. -/
def dinAfter (d : Word) (s : List Byte) : Word :=
  if s = [] then d else le64 (s.drop (8 * ((s.length - 1) / 8)))

@[simp] theorem dinAfter_nil (d : Word) : dinAfter d [] = d := rfl

theorem dinAfter_short (d : Word) {s : List Byte} (hne : s ≠ []) (h : s.length ≤ 8) : dinAfter d s = le64 s := by
  have hzero : (s.length - 1) / 8 = 0 := by omega
  rw [dinAfter, if_neg hne, hzero, Nat.mul_zero, List.drop_zero]

theorem dinAfter_block (d : Word) {m : List Byte} (h : m.length = 8) (rest : List Byte) :
    dinAfter d (m ++ rest) = dinAfter (le64 m) rest := by
  have hm : m ≠ [] := List.ne_nil_of_length_pos (by omega)
  by_cases hr : rest = []
  · subst hr
    rw [List.append_nil, dinAfter_short d hm (by omega), dinAfter_nil]
  · have hpos := List.length_pos_iff.2 hr
    have hlast : 8 * (((m ++ rest).length - 1) / 8) = m.length + 8 * ((rest.length - 1) / 8) := by simp; omega
    rw [dinAfter, dinAfter, if_neg (by simp [hm]), if_neg hr, hlast, List.drop_length_add_append]

/-! ### The expansion -/

/-- The block that the expansion of ABSORB leaves. -/
def absorbThroughDin (b : Block) (s : List Byte) : Block := { absorb b s with din := dinAfter b.din s }

theorem absorbThroughDin_nil {b : Block} (h : b.tail.length ≤ 7) : absorbThroughDin b [] = b := by
  rw [absorbThroughDin, absorb_nil h, dinAfter_nil]

theorem absorbThroughDin_block {b : Block} (h : b.tail.length ≤ 7) {m : List Byte} (hm : m.length = 8)
    (rest : List Byte) :
    absorbThroughDin b (m ++ rest) = absorbThroughDin (absorbThroughDin b m) rest := by
  have hne : m ≠ [] := List.ne_nil_of_length_pos (by omega)
  rw [absorbThroughDin, absorb_append h, dinAfter_block _ hm, ← dinAfter_short b.din hne hm.le]
  rfl

theorem runs_pseudoChunk {s : State} {ch : List Byte} (hi : s.block.initd = true) (hne : ch ≠ []) (h : ch.length ≤ 8) :
    Runs (pseudoChunk ch) s (s.setBlock (absorbThroughDin s.block ch)) := by
  have hwrite := runs_asmWrite (s := s.setBlock (storeReg .din (le64 ch) s.block)) h hi
  have hspan : (bytesLe (storeReg .din (le64 ch) s.block).din).take ch.length = ch := take_bytesLe_le64 h
  rw [State.setBlock_block, hspan] at hwrite
  rw [absorbThroughDin, dinAfter_short _ hne h]
  exact (runs_asmWr .din (le64 ch) s (by decide)).append hwrite

theorem runs_pseudoChunks (bytes : List Byte) : ∀ {s : State}, s.block.initd = true → s.block.tail.length ≤ 7 →
    Runs (pseudoChunks bytes) s (s.setBlock (absorbThroughDin s.block bytes)) := by
  induction bytes using chunk_induction with
  | short bytes hlt =>
    intro s hi ht
    by_cases hne : bytes = []
    · subst hne
      rw [absorbThroughDin_nil ht]
      exact runs_nil s
    · rw [pseudoChunks_short hne hlt]
      exact runs_pseudoChunk hi hne hlt.le
  | chunk m rest hm ih =>
    intro s hi ht
    have hne : m ≠ [] := List.ne_nil_of_length_pos (by omega)
    rw [pseudoChunks_block hm, absorbThroughDin_block ht hm]
    exact (runs_pseudoChunk hi hne hm.le).append
      (ih (s := s.setBlock (absorbThroughDin s.block m)) hi (length_absorb_tail m ht))

theorem runs_pseudoAbsorb (bytes : List Byte) {s : State} (hi : s.block.initd = true) (ht : s.block.tail.length ≤ 7) :
    Runs (pseudoAbsorb bytes) s (s.setBlock (absorbThroughDin s.block bytes)) := by
  cases bytes with
  | nil =>
    have hwrite := runs_asmWrite (n := 0) (by omega) hi
    rw [List.take_zero, absorb_nil ht] at hwrite
    rwa [absorbThroughDin_nil ht]
  | cons b bs => exact runs_pseudoChunks (b :: bs) hi ht

/-- Settles O44: the run of the expansion, with the events behind it left waiting. -/
theorem absorbPseudoInstruction : Obligations.AbsorbPseudoInstruction := by
  unfold Obligations.AbsorbPseudoInstruction
  intro s bytes rest hi ht
  exact ⟨_, runs_pseudoAbsorb bytes hi ht rest, rfl, rfl, rfl, rfl⟩

end Sys2Proof.Machine
end

section
/-! The pseudo-instruction HASH (30_encoding.md R61): key, INIT, ABSORB and FINISH leave the tag of the bytes, and the reads
of the tag return its last word. -/

namespace Sys2Proof.Machine

variable {algo : Tag128Algo} {x : Variant} {w : TagWidth} {k0 k1 : Word} {σ : List Byte} {s : State}

theorem runs_pseudoSetkey (k0 k1 : Word) (s : State) :
    Runs (pseudoSetkey k0 k1) s (s.setBlock { s.block with key0 := k0, key1 := k1 }) :=
  (runs_asmWr .key0 k0 s (by decide)).append (runs_asmWr .key1 k1 _ (by decide))

/-- SETKEY and INIT leave the block at the beginning of a stream under the key, with no error recorded. -/
theorem runs_setkey_init (x : Variant) (w : TagWidth) (k0 k1 : Word) (s : State) :
    ∃ t, Runs (pseudoSetkey k0 k1 ++ [asmInit x w]) s t ∧ t.Hashing s.params.tag128Algo x w k0 k1 [] ∧
      t.block.err = false :=
  have hrep := represents_startInstance s.params.tag128Algo w x { s.block with key0 := k0, key1 := k1 }
  ⟨_, (runs_pseudoSetkey k0 k1 s).append (runs_asmInit x w _), ⟨rfl, rfl, rfl, hrep⟩, rfl⟩

theorem State.Hashing.runs_pseudoAbsorb (h : s.Hashing algo x w k0 k1 σ) (bytes : List Byte) :
    ∃ t, Runs (pseudoAbsorb bytes) s t ∧ t.Hashing algo x w k0 k1 (σ ++ bytes) ∧ t.block.err = s.block.err := by
  obtain ⟨halgo, hvar, hw, hrep⟩ := h
  have ht : s.block.tail.length ≤ 7 := by rw [hrep.tail, length_streamTail]; omega
  exact ⟨_, Machine.runs_pseudoAbsorb bytes hrep.initd ht,
    ⟨halgo, hvar, hw, (hrep.absorb_span bytes).storeReg .din (dinAfter s.block.din bytes)⟩, rfl⟩

/-- An accepted FINISH records no error. -/
theorem exec_finish_keeps_err {t : State} (hi : s.block.initd = true) (h : exec .finish s = .next t) :
    t.block.err = s.block.err := by
  rw [exec_finish_of_initd hi] at h
  injection h with h
  subst h
  rfl

theorem State.Hashing.runs_asmFinish (h : s.Hashing algo x w k0 k1 σ) :
    ∃ t, Runs [asmFinish] s t ∧ t.block.err = s.block.err ∧ t.block.tv = true ∧
      (t.block.tag0, t.block.tag1) = sipHashTags algo x w k0 k1 σ := by
  obtain ⟨t, hx, -, htag⟩ := h.exec_finish
  exact ⟨t, runs_encode (i := .finish) rfl hx, exec_finish_keeps_err h.represents.initd hx, htag⟩

/-- The expansion of HASH up to the reads of the tag. -/
theorem runs_hash_to_finish (x : Variant) (w : TagWidth) (k0 k1 : Word) (bytes : List Byte) (s : State) :
    ∃ t, Runs (pseudoSetkey k0 k1 ++ [asmInit x w] ++ pseudoAbsorb bytes ++ [asmFinish]) s t ∧
      t.block.err = false ∧ t.block.tv = true ∧
      (t.block.tag0, t.block.tag1) = sipHashTags s.params.tag128Algo x w k0 k1 bytes := by
  obtain ⟨t₁, hrun₁, hash₁, herr₁⟩ := runs_setkey_init x w k0 k1 s
  obtain ⟨t₂, hrun₂, hash₂, herr₂⟩ := hash₁.runs_pseudoAbsorb bytes
  obtain ⟨t₃, hrun₃, herr₃, htag⟩ := hash₂.runs_asmFinish
  exact ⟨t₃, (hrun₁.append hrun₂).append hrun₃, by rw [herr₃, herr₂, herr₁], htag⟩

/-- Settles O45: after FINISH only the reads are left, one for each word of the tag. -/
theorem hashPseudoInstruction : Obligations.HashPseudoInstruction := by
  unfold Obligations.HashPseudoInstruction
  intro s x w k0 k1 bytes rest
  obtain ⟨t, hrun, herr, htv, htag⟩ := runs_hash_to_finish x w k0 k1 bytes s
  cases w with
  | tag64 => exact ⟨_, hrun.append (runs_asmRd .tag0 t) rest, rfl, htv, herr, htag, rfl⟩
  | tag128 =>
    have hreads := (runs_asmRd .tag0 t).append (runs_asmRd .tag1 _)
    exact ⟨_, hrun.append hreads rest, rfl, htv, herr, htag, rfl⟩

end Sys2Proof.Machine
end

section
/-! SipRound is a permutation (40_sipround.md R62 to R65). Its four lines are one half round run twice, with other rotation
amounts, and a half round is undone step by step. -/

namespace Sys2Proof.Machine

/-! ### Rotations -/

/-- Settles O24: the bit stays below the top or wraps around it. -/
theorem rotlMovesEveryBit : Obligations.RotlMovesEveryBit := by
  unfold Obligations.RotlMovesEveryBit
  intro x r i h1 h2 hi
  rw [getLsbD_rotl x r _ h1 h2 (Nat.mod_lt _ (by decide))]
  by_cases hwrap : i + r < 64
  · rw [Nat.mod_eq_of_lt hwrap, if_pos (Nat.le_add_left r i), Nat.add_sub_cancel]
  · have hmod : (i + r) % 64 = i + r - 64 := by omega
    have hback : 64 - r + (i + r - 64) = i := by omega
    rw [hmod, if_neg (by omega), hback]

theorem getLsbD_rotr (x : Word) {r i : Nat} (h1 : 1 ≤ r) (h2 : r ≤ 63) (hi : i < 64) :
    (rotr x r).getLsbD i = x.getLsbD ((i + r) % 64) := by
  have hmove := rotlMovesEveryBit x (64 - r) ((i + r) % 64) (by omega) (by omega) (Nat.mod_lt _ (by decide))
  have hback : ((i + r) % 64 + (64 - r)) % 64 = i := by omega
  rwa [hback] at hmove

theorem rotr_rotl (x : Word) {r : Nat} (h1 : 1 ≤ r) (h2 : r ≤ 63) : rotr (rotl x r) r = x := by
  refine BitVec.eq_of_getLsbD_eq fun i hi => ?_
  rw [getLsbD_rotr _ h1 h2 hi, rotlMovesEveryBit x r i h1 h2 hi]

/-- A rotation to the right is one to the left by the rest of the 64 bits. -/
theorem rotl_rotr (x : Word) {r : Nat} (h1 : 1 ≤ r) (h2 : r ≤ 63) : rotl (rotr x r) r = x := by
  have h := rotr_rotl x (r := 64 - r) (by omega) (by omega)
  rwa [rotr, Nat.sub_sub_self (by omega)] at h

/-! ### SipRound -/

/-- Settles O25: the model runs the same steps in the same order. -/
theorem sipRoundIsItsFourLines : Obligations.SipRoundIsItsFourLines := by
  unfold Obligations.SipRoundIsItsFourLines
  intro v0 v1 v2 v3
  rfl

/-- The first two lines of SipRound with the amounts `r` and `s`, and the exchange of v0 and v2. By the exchange its last
two lines are a half round too, with other amounts. -/
def halfRound (r s : Nat) (v : HashState) : HashState :=
  ⟨v.v2 + v.v3, rotl v.v1 r ^^^ (v.v0 + v.v1), rotl (v.v0 + v.v1) 32, rotl v.v3 s ^^^ (v.v2 + v.v3)⟩

/-- The half round undone: an XOR by repeating it, a rotation by rotating back, an addition by subtracting (R65). -/
def halfRoundInv (r s : Nat) (v : HashState) : HashState :=
  let v1 := rotr (v.v1 ^^^ rotr v.v2 32) r
  let v3 := rotr (v.v3 ^^^ v.v0) s
  ⟨rotr v.v2 32 - v1, v1, v.v0 - v3, v3⟩

theorem sipRound_eq_halfRounds : sipRound = halfRound 17 21 ∘ halfRound 13 16 := rfl

theorem sipRoundInv_eq_halfRounds : sipRoundInv = halfRoundInv 13 16 ∘ halfRoundInv 17 21 := rfl

theorem halfRoundInv_leftInverse {r s : Nat} (hr : 1 ≤ r ∧ r ≤ 63) (hs : 1 ≤ s ∧ s ≤ 63) :
    Function.LeftInverse (halfRoundInv r s) (halfRound r s) := by
  intro ⟨v0, v1, v2, v3⟩
  have hrot0 := rotr_rotl (v0 + v1) (r := 32) (by decide) (by decide)
  have hrot1 := rotr_rotl v1 hr.1 hr.2
  have hrot3 := rotr_rotl v3 hs.1 hs.2
  simp only [halfRound, halfRoundInv, hrot0, hrot1, hrot3, xor_cancel_right, add_sub_cancel_right]

theorem halfRoundInv_rightInverse {r s : Nat} (hr : 1 ≤ r ∧ r ≤ 63) (hs : 1 ≤ s ∧ s ≤ 63) :
    Function.RightInverse (halfRoundInv r s) (halfRound r s) := by
  intro ⟨v0, v1, v2, v3⟩
  have hrot0 := rotl_rotr v2 (r := 32) (by decide) (by decide)
  have hrot1 := rotl_rotr (v1 ^^^ rotr v2 32) hr.1 hr.2
  have hrot3 := rotl_rotr (v3 ^^^ v0) hs.1 hs.2
  simp only [halfRound, halfRoundInv, hrot0, hrot1, hrot3, xor_cancel_right, sub_add_cancel]

/-- Settles O26: the half rounds are undone in the reverse order. -/
theorem sipRoundIsAPermutation : Obligations.SipRoundIsAPermutation := by
  unfold Obligations.SipRoundIsAPermutation
  rw [sipRound_eq_halfRounds, sipRoundInv_eq_halfRounds]
  constructor
  · exact (halfRoundInv_leftInverse (by decide) (by decide)).comp (halfRoundInv_leftInverse (by decide) (by decide))
  · exact (halfRoundInv_rightInverse (by decide) (by decide)).comp (halfRoundInv_rightInverse (by decide) (by decide))

end Sys2Proof.Machine
end

section
/-! Compress (41_compression.md R67): the block word enters before the rounds and again after them. -/

namespace Sys2Proof.Machine

/-- SipRound adds, XORs and rotates the words of its state and brings in no constant, so zero is a fixed point. -/
theorem sipRound_zeroState : sipRound ⟨0, 0, 0, 0⟩ = ⟨0, 0, 0, 0⟩ := by decide

theorem rounds_zeroState (c : Nat) : rounds ⟨0, 0, 0, 0⟩ c = ⟨0, 0, 0, 0⟩ := by
  induction c with
  | zero => rfl
  | succ c ih => rw [rounds_succ, sipRound_zeroState, ih]

@[simp] theorem compress_zeroWord (s : HashState) (c : Nat) : compress s 0 c = rounds s c := by
  simp [compress]

/-- Settles O27: the first clause is the definition with its XORs written out; a zero block word changes nothing at either
end, and the rounds keep the zero state. -/
theorem compressFollowsItsRule : Obligations.CompressFollowsItsRule := by
  unfold Obligations.CompressFollowsItsRule
  intro s m c
  have hzero : compress ⟨0, 0, 0, 0⟩ 0 c = ⟨0, 0, 0, 0⟩ := by rw [compress_zeroWord, rounds_zeroState]
  exact ⟨rfl, rounds_zero s, rounds_succ s c, compress_zeroWord s c, hzero⟩

end Sys2Proof.Machine
end

section
/-! Initialization (42_initialization.md R70, R71): the state INIT starts from the key, the instance an accepted INIT
leaves, and the code of a rejected one. -/

namespace Sys2Proof.Machine

/-! ### InitState -/

/-- Settles O28: the four algorithm and width pairs, of which REF with W = 1 alone reaches the XOR into v1. -/
theorem initStateFollowsItsRule : Obligations.InitStateFollowsItsRule := by
  unfold Obligations.InitStateFollowsItsRule
  intro algo k0 k1 w
  cases algo with
  | doc => cases w <;> rfl
  | ref => cases w <;> rfl

/-! ### The rejected INIT -/

theorem exec_init_reservedVariant (s : State) (w : TagWidth) {var : BitVec 2} (h : 2 ≤ var.toNat) :
    exec (.init w var) s = .next (s.setBlock (raiseError .reservedField s.block)) := by
  simp only [exec, execInit, Variant.ofCode_eq_none.2 h]

theorem decodeCommand_reservedInit {v : Word} (hop : opField v = 0x1)
    (h : v.extractLsb' 7 57 ≠ 0 ∨ 2 ≤ (varField v).toNat) : decodeCommand v = .error .field := by
  rw [decodeCommand, if_pos hop, if_pos h]

/-- Settles O29: an accepted INIT is `startInstance`, which writes every element but DIN and the keys; a reserved VAR is
rejected by the meaning of INIT, and a reserved word by the decoder before it. -/
theorem initStartsAnInstance : Obligations.InitStartsAnInstance := by
  unfold Obligations.InitStartsAnInstance
  refine ⟨?_, ?_, ?_⟩
  · exact fun s w x => exec_init_code s w x
  · exact fun s w var hvar => exec_init_reservedVariant s w hvar
  · exact fun s v hop hreserved => exec_wr_cmd_error s (decodeCommand_reservedInit hop hreserved)

end Sys2Proof.Machine
end

section
/-! The stream (43_streaming.md R76 to R84): ABSORB as byte-serial append, in pieces and within one WRITE; what a WRITE
counts, compresses, reads of DIN and leaves alone; and the streaming state machine of R75. -/

namespace Sys2Proof.Machine

/-! ### Byte by byte, and span after span -/

/-- Each byte completes a block or extends the tail, so the loop of R79 takes the chunks that ABSORB takes. -/
theorem foldl_appendByte_eq_absorbChunks (s : List Byte) : ∀ b : Block, b.tail.length ≤ 7 →
    s.foldl appendByte b = { b with
      v := (absorbChunks b.var.cRounds b.v (b.tail ++ s)).1
      tail := (absorbChunks b.var.cRounds b.v (b.tail ++ s)).2 } := by
  induction s with
  | nil =>
    intro b ht
    rw [List.append_nil, absorbChunks_short _ _ _ (by omega)]
    rfl
  | cons x s ih =>
    intro b ht
    rw [List.foldl_cons, List.append_cons]
    by_cases hfull : (b.tail ++ [x]).length = 8
    · rw [appendByte, if_pos hfull, ih _ (by simp), absorbChunks_block _ _ _ _ hfull, List.nil_append]
    · have ht' : (b.tail ++ [x]).length ≤ 7 := by simp at hfull ⊢; omega
      rw [appendByte, if_neg hfull, ih _ ht']

/-- Settles O31: both forms take the chunks of the tail and the span together, and count the span at the end. -/
theorem absorbIsByteSerial : Obligations.AbsorbIsByteSerial := by
  unfold Obligations.AbsorbIsByteSerial
  intro b s ht
  rw [absorb_eq_absorbChunks b s ht, absorbSerial, foldl_appendByte_eq_absorbChunks s b ht]

/-- Settles O32, by induction over the list of spans. -/
theorem chunkingInvariance : Obligations.ChunkingInvariance := by
  unfold Obligations.ChunkingInvariance
  intro b spans
  induction spans generalizing b with
  | nil => exact fun ht => (absorb_nil ht).symm
  | cons s spans ih =>
    intro ht
    rw [List.foldl_cons, List.flatten_cons, absorb_append ht, ih _ (length_absorb_tail s ht)]

/-! ### One WRITE -/

/-- A tail and a span of at most 8 bytes hold at most one block (R80). -/
theorem absorbChunks_tail_span (c : Nat) (v : HashState) {tail s : List Byte} (ht : tail.length ≤ 7)
    (hs : s.length ≤ 8) :
    absorbChunks c v (tail ++ s) =
      if 8 ≤ tail.length + s.length then
        (compress v (le64 (tail ++ s.take (8 - tail.length))) c, s.drop (8 - tail.length))
      else (v, tail ++ s) := by
  by_cases hfull : 8 ≤ tail.length + s.length
  · have hblock : (tail ++ s.take (8 - tail.length)).length = 8 := by simp; omega
    have hsplit : tail ++ s = (tail ++ s.take (8 - tail.length)) ++ s.drop (8 - tail.length) := by simp
    rw [if_pos hfull, hsplit, absorbChunks_block _ _ _ _ hblock, absorbChunks_short _ _ _ (by simp; omega)]
  · rw [if_neg hfull, absorbChunks_short _ _ _ (by simp; omega)]

theorem absorb_of_length_le {b : Block} {s : List Byte} (ht : b.tail.length ≤ 7) (hs : s.length ≤ 8) :
    absorb b s = { b with
      v := if 8 ≤ b.tail.length + s.length then compress b.v (le64 (b.tail ++ s.take (8 - b.tail.length))) b.var.cRounds
        else b.v
      tail := if 8 ≤ b.tail.length + s.length then s.drop (8 - b.tail.length) else b.tail ++ s
      len := b.len + BitVec.ofNat 64 s.length } := by
  rw [absorb_eq_absorbChunks b s ht, absorbChunks_tail_span _ _ ht hs, apply_ite Prod.fst, apply_ite Prod.snd]

/-- Settles O33: a WRITE's span is the low lanes of DIN, at most 8 bytes. -/
theorem writeCompressesAtMostOneBlock : Obligations.WriteCompressesAtMostOneBlock := by
  unfold Obligations.WriteCompressesAtMostOneBlock
  intro s n hi ht hn t span
  have hspan : dinSpan s.block.din n = span := dinSpan_eq_lanes s.block.din n hn
  have hlen : span.length = n.toNat := hspan ▸ length_dinSpan s.block.din n hn
  rw [exec_write_of_initd hi hn, hspan, absorb_of_length_le ht (by omega), hlen, BitVec.ofNat_toNat]
  rfl

/-- Settles O35: the span of WRITE 0 is empty. -/
theorem zeroLengthWriteChangesNothing : Obligations.ZeroLengthWriteChangesNothing := by
  unfold Obligations.ZeroLengthWriteChangesNothing
  intro s ht
  refine ⟨fun hi => ?_, fun hi => exec_write_of_uninit hi (by decide)⟩
  have hspan : dinSpan s.block.din 0 = [] := List.take_zero
  rw [exec_write_of_initd hi (by decide), hspan, absorb_nil ht, State.setBlock_self]

/-! ### What WRITEs count (R78) -/

theorem exec_write_reservedCount {s : State} {n : BitVec 4} (hn : 8 < n.toNat) :
    exec (.write n) s = .next (s.setBlock (raiseError .reservedField s.block)) := if_pos hn

theorem execAll_writes_len (ns : List (BitVec 4)) : ∀ s : State, s.block.initd = true → (∀ n ∈ ns, n.toNat ≤ 8) →
    ∃ t, execAll (ns.map .write) s = .next t ∧
      t.block.len = s.block.len + BitVec.ofNat 64 (ns.map BitVec.toNat).sum := by
  induction ns with
  | nil => exact fun s _ _ => ⟨s, rfl, by simp⟩
  | cons n ns ih =>
    intro s hi hle
    have hn : n.toNat ≤ 8 := hle n List.mem_cons_self
    obtain ⟨t, ht, hlen⟩ := ih (s.setBlock (absorb s.block (dinSpan s.block.din n))) hi
      fun m hm => hle m (List.mem_cons_of_mem n hm)
    refine ⟨t, ?_, ?_⟩
    · rw [List.map_cons, execAll_cons _ (exec_write_of_initd hi hn), ht]
    · rw [hlen, State.setBlock_block, absorb_len, length_dinSpan _ n hn, BitVec.add_assoc, ← BitVec.ofNat_add,
        List.map_cons, List.sum_cons]

/-- Settles O34: the accepted WRITEs one after the other, and each cause of a rejected one. -/
theorem writeCountsItsBytes : Obligations.WriteCountsItsBytes := by
  unfold Obligations.WriteCountsItsBytes
  refine ⟨fun s ns => execAll_writes_len ns s, fun s n hrejected => ?_⟩
  by_cases hn : 8 < n.toNat
  · exact ⟨_, exec_write_reservedCount hn, raiseError_len _ _⟩
  · have hi : s.block.initd = false := hrejected.resolve_right hn
    exact ⟨_, exec_write_of_uninit hi (by omega), raiseError_len _ _⟩

/-! ### What a WRITE reads of DIN (R84) -/

theorem dinSpan_congr {d d' : Word} {n : BitVec 4} (hn : n.toNat ≤ 8)
    (h : ∀ j, j < n.toNat → byteLane d j = byteLane d' j) : dinSpan d n = dinSpan d' n := by
  rw [dinSpan_eq_lanes d n hn, dinSpan_eq_lanes d' n hn]
  exact List.map_congr_left fun j hj => h j (List.mem_range.1 hj)

theorem raiseError_storeReg (e : ErrorCode) (r : PortReg) (v : Word) (b : Block) :
    raiseError e (storeReg r v b) = storeReg r v (raiseError e b) := by
  simp only [raiseError_eq]
  cases r <;> rfl

/-- Settles O36: the span is the same for both values of DIN, and neither ABSORB nor the error action uses DIN. -/
theorem writeIgnoresUpperLanes : Obligations.WriteIgnoresUpperLanes := by
  unfold Obligations.WriteIgnoresUpperLanes
  intro s n d hn hlanes
  cases hi : s.block.initd with
  | true =>
    have hspan : dinSpan (storeReg .din d s.block).din n = dinSpan s.block.din n := dinSpan_congr hn hlanes
    have hx := exec_write_of_initd (s := s.setBlock (storeReg .din d s.block)) hi hn
    rw [State.setBlock_block, hspan] at hx
    exact ⟨_, exec_write_of_initd hi hn, rfl, hx⟩
  | false =>
    have hx := exec_write_of_uninit (s := s.setBlock (storeReg .din d s.block)) hi hn
    rw [State.setBlock_block, raiseError_storeReg] at hx
    exact ⟨_, exec_write_of_uninit hi hn, raiseError_din _ _, hx⟩

/-! ### The streaming state machine (R75) -/

@[simp] theorem storeReg_tail (r : PortReg) (v : Word) (b : Block) : (storeReg r v b).tail = b.tail := by
  cases r <;> rfl

@[simp] theorem streamState_storeReg (r : PortReg) (v : Word) (b : Block) :
    streamState (storeReg r v b) = streamState b := by
  simp [streamState, Block.ntail]

@[simp] theorem streamState_raiseError (e : ErrorCode) (b : Block) : streamState (raiseError e b) = streamState b := by
  simp [streamState, Block.ntail]

@[simp] theorem streamState_writeTags (algo : Tag128Algo) (b : Block) :
    streamState (writeTags algo b) = streamState b := rfl

theorem streamState_absorb {b : Block} (hi : b.initd = true) (ht : b.tail.length ≤ 7) (s : List Byte) :
    streamState (absorb b s) = .ofTailLength ((b.tail.length + s.length) % 8) := by
  have hlen : (absorb b s).tail.length = (b.tail.length + s.length) % 8 := by
    rw [absorb_eq_absorbChunks b s ht, absorbChunks_eq_stream, length_streamTail, List.length_append]
  rw [streamState, absorb_initd, if_pos hi, Block.ntail, hlen]

theorem opField_initWord (w : TagWidth) (x : BitVec 2) : opField (initWord w x) = 0x1 := by
  cases w <;> revert x <;> decide

/-- A command word with a cause of rejection raises that cause and does nothing else (60_exceptions.md R106, R107). -/
theorem exec_wr_cmd_rejected {s : State} {v : Word} {e : ErrorCode} (h : rejectionCode v s.block.initd = some e) :
    exec (.wr .cmd v) s = .next (s.setBlock (raiseError e s.block)) := by
  unfold rejectionCode at h
  split_ifs at h with hop hlegal hcmd
  all_goals obtain rfl := Option.some.inj h
  · obtain ⟨hwriteOrFinish, hi⟩ := hcmd
    obtain ⟨c, hd⟩ := (decodeCommand_accepts_iff v).2 hlegal
    obtain ⟨hwf, hv⟩ := wellFormed_and_eq_encodeCommand hd
    rw [exec_wr_cmd_ok s hd]
    cases c with
    | init w var =>
      rw [hv, encodeCommand, opField_initWord] at hwriteOrFinish
      exact absurd hwriteOrFinish (by decide)
    | write n => exact exec_write_of_uninit hi (of_decide_eq_true hwf)
    | finish => exact exec_finish_of_uninit hi
  · exact exec_wr_cmd_error s ((decodeCommand_eq_field_iff v).2 ⟨hop, hlegal⟩)
  · exact exec_wr_cmd_error s ((decodeCommand_eq_opcode_iff v).2 hop)

theorem exec_finish_streamState {s t : State} (h : exec .finish s = .next t) :
    streamState t.block = streamState s.block := by
  cases hi : s.block.initd with
  | true =>
    obtain rfl := Host.Outcome.next.inj ((exec_finish_of_initd hi).symm.trans h)
    exact streamState_writeTags _ s.block
  | false =>
    obtain rfl := Host.Outcome.next.inj ((exec_finish_of_uninit hi).symm.trans h)
    exact streamState_raiseError _ s.block

/-- Only reset, an accepted INIT and an accepted WRITE move the state machine. -/
theorem EventEffect.streamState_eq {p : Params} {e : HostEvent} {b b' : Block} (h : EventEffect p e b b')
    (hreset : e ≠ .reset) (hinit : ∀ w x, eventInstr p e = some (.init w x) → 2 ≤ x.toNat)
    (hwrite : ∀ n, eventInstr p e = some (.write n) → b.initd = false ∨ 8 < n.toNat) :
    streamState b' = streamState b := by
  cases h with
  | reset he => exact absurd he hreset
  | start w x he => exact absurd (Variant.toNat_code_lt x) (hinit w x.code he).not_gt
  | append n he hn hi =>
    obtain huninit | hbig := hwrite n he
    · exact absurd (hi.symm.trans huninit) (by decide)
    · exact absurd hn hbig.not_ge
  | read r he => rfl
  | store r v he hr => exact streamState_storeReg r v b
  | reject i ec he hi => exact streamState_raiseError ec b
  | finish he hi => exact streamState_writeTags _ b

/-- Settles O37, transition by transition. -/
theorem streamStateMachine : Obligations.StreamStateMachine := by
  unfold Obligations.StreamStateMachine
  refine ⟨fun _ => rfl, ?_, ?_, fun s t => exec_finish_streamState, ?_, ?_⟩
  · intro s t w x hx
    obtain rfl := Host.Outcome.next.inj ((exec_init_code s w x).symm.trans hx)
    rfl
  · intro s t n hi ht hn hx
    have hlen := length_dinSpan s.block.din n hn
    obtain rfl := Host.Outcome.next.inj ((exec_write_of_initd hi hn).symm.trans hx)
    rw [State.setBlock_block, streamState_absorb hi ht, absorb_of_length_le ht (by omega), hlen]
    exact ⟨rfl, rfl⟩
  · intro s t v e hcode hx
    obtain rfl := Host.Outcome.next.inj ((exec_wr_cmd_rejected hcode).symm.trans hx)
    exact streamState_raiseError e s.block
  · intro s t e rest hp hstep hreset hinit hwrite
    obtain ⟨-, heff⟩ := step_eventEffect hp hstep
    exact heff.streamState_eq hreset hinit hwrite

end Sys2Proof.Machine
end

section
/-! Finalization (44_finalization.md R85 to R95): the layout of the padded block, the tag that FINISH writes and its
128-bit view, and what FINISH leaves for a second FINISH. -/

namespace Sys2Proof.Machine

/-! ### The 128-bit view of the tag (R91) -/

/-- Settles O21: a lane below 8 is one of TAG0, and any other is one of TAG1. -/
theorem tag128IsTag1AboveTag0 : Obligations.Tag128IsTag1AboveTag0 := by
  unfold Obligations.Tag128IsTag1AboveTag0
  intro b
  refine ⟨rfl, by simp [tag128Bytes], fun j hj => ?_⟩
  rw [tag128Bytes, tag128Value]
  by_cases hlow : j < 8
  · rw [List.getElem?_append_left (by simpa using hlow), getElem?_bytesLe _ _ hlow,
      BitVec.extractLsb'_append_eq_of_add_le (by omega), byteLane]
  · have hlane : 8 * j - 64 = 8 * (j - 8) := by omega
    rw [List.getElem?_append_right (by simpa using hlow), length_bytesLe, getElem?_bytesLe _ _ (by omega),
      BitVec.extractLsb'_append_eq_of_le (by omega), hlane, byteLane]

/-! ### The padded block (R85) -/

theorem byteLane_or (x y : Word) (j : Nat) : byteLane (x ||| y) j = byteLane x j ||| byteLane y j :=
  BitVec.extractLsb'_or

/-- A byte moved to the top of a word stands in lane 7 alone. -/
theorem byteLane_topByte (x : Byte) {j : Nat} (hj : j < 8) :
    byteLane (x.setWidth 64 <<< 56) j = if j = 7 then x else 0#8 := by
  ext i hi
  rw [← BitVec.getLsbD_eq_getElem, getLsbD_byteLane, BitVec.getLsbD_shiftLeft, BitVec.getLsbD_setWidth]
  by_cases htop : j = 7
  · subst htop
    have hword : 56 + i < 64 := by omega
    have hbyte : i < 64 := by omega
    simp [hi, hword, hbyte]
  · have hbelow : 8 * j + i < 56 := by omega
    simp [htop, hbelow]

theorem byteLane_padBlock (tail : List Byte) (len : Word) {j : Nat} (hj : j < 8) :
    byteLane (padBlock tail len) j = tail.getD j 0 ||| if j = 7 then len.setWidth 8 else 0#8 := by
  rw [padBlock, byteLane_or, byteLane_le64 tail hj, byteLane_topByte _ hj]

/-- Settles O38: a tail of at most 7 bytes leaves lane 7 to LEN, and LEN reaches no other lane. -/
theorem padBlockLayout : Obligations.PadBlockLayout := by
  unfold Obligations.PadBlockLayout
  intro tail len ht
  have hpast : tail.getD 7 0 = 0#8 := by simp [ht]
  refine ⟨?_, fun j hj => ?_⟩
  · have htop := byteLane_padBlock tail len (j := 7) (by decide)
    rwa [hpast, if_pos rfl, BitVec.zero_or, BitVec.setWidth_eq_extractLsb' (by decide)] at htop
  · have hlane := byteLane_padBlock tail len (j := j) (by omega)
    rwa [if_neg (by omega), BitVec.or_zero] at hlane

/-! ### The tag that FINISH writes (R87 to R92, R95) -/

/-- The two tag words as conditions on the width and TAG128_ALGO. -/
theorem finalizeTags_eq (algo : Tag128Algo) (w : TagWidth) (s2 : HashState) (d : Nat) :
    finalizeTags algo w s2 d =
      (if w = .tag128 ∧ algo = .ref then xor4 (rounds (s2.xorV2 0xee) d) else finalize64 s2 d,
       if w = .tag64 then 0 else if algo = .doc then xor4 (rounds (s2.xorV1 0xdd) d)
        else xor4 (rounds ((rounds (s2.xorV2 0xee) d).xorV1 0xdd) d)) := by
  cases w with
  | tag64 => cases algo <;> rfl
  | tag128 => cases algo <;> rfl

theorem decodeCommand_reservedFinish {v : Word} (hop : opField v = 0x3) (h : v.extractLsb' 4 60 ≠ 0) :
    decodeCommand v = .error .field := by
  rw [decodeCommand, hop, if_neg (by decide), if_neg (by decide), if_pos rfl, if_pos h]

/-- Settles O39: an accepted FINISH is `writeTags`; the block rejects it in UNINIT, and the decoder a reserved word. -/
theorem finishWritesTheTag : Obligations.FinishWritesTheTag := by
  unfold Obligations.FinishWritesTheTag
  refine ⟨fun s hi => ?_, fun s hi => exec_finish_of_uninit hi, fun s v hop h => ?_⟩
  · rw [exec_finish_of_initd hi, writeTags, finalizeTags_eq]
    rfl
  · exact exec_wr_cmd_error s (decodeCommand_reservedFinish hop h)

theorem initState_doc (k0 k1 : Word) (w : TagWidth) : initState .doc k0 k1 w = keyedState k0 k1 := by
  cases w <;> rfl

theorem finalizeTags_doc_fst (w : TagWidth) (s2 : HashState) (d : Nat) :
    (finalizeTags .doc w s2 d).1 = finalize64 s2 d := by
  cases w <;> rfl

/-- Settles O41: under DOC neither the initial state nor the first pass of finalization depends on the width. -/
theorem docWordOneIsThe64BitTag : Obligations.DocWordOneIsThe64BitTag := by
  unfold Obligations.DocWordOneIsThe64BitTag
  intro x k0 k1 σ
  simp only [sipHashTags, initState_doc, finalizeTags_doc_fst]

/-! ### What FINISH leaves for a second FINISH (R93) -/

/-- What FINISH reads of the block (R92): INITD, and the elements the tag is computed from. -/
structure StreamElements where
  initd : Bool
  v : HashState
  tail : List Byte
  len : Word
  var : Variant
  w : TagWidth

def streamElements (b : Block) : StreamElements := ⟨b.initd, b.v, b.tail, b.len, b.var, b.w⟩

@[simp] theorem streamElements_storeReg (r : PortReg) (v : Word) (b : Block) :
    streamElements (storeReg r v b) = streamElements b := by
  cases r <;> rfl

@[simp] theorem streamElements_raiseError (e : ErrorCode) (b : Block) :
    streamElements (raiseError e b) = streamElements b := by
  simp [streamElements]

@[simp] theorem streamElements_writeTags (algo : Tag128Algo) (b : Block) :
    streamElements (writeTags algo b) = streamElements b := rfl

/-- The tag is a function of the elements that FINISH reads. -/
theorem writeTags_tags_congr (algo : Tag128Algo) {b b' : Block} (h : streamElements b = streamElements b') :
    (writeTags algo b).tag0 = (writeTags algo b').tag0 ∧ (writeTags algo b).tag1 = (writeTags algo b').tag1 := by
  simp only [streamElements, StreamElements.mk.injEq] at h
  obtain ⟨-, hv, htail, hlen, hvar, hw⟩ := h
  simp only [writeTags, finalState, hv, htail, hlen, hvar, hw, and_self]

theorem leavesStream_wr_cmd {v : Word} {c : Command} (hd : decodeCommand v = .ok c) :
    leavesStream (.wr .cmd v) = leavesStream c.toInstr := by
  cases c <;> simp [leavesStream, resolveCommand, hd, Command.toInstr]

/-- Of the commands, FINISH writes the tags, and a rejected INIT or WRITE the error flags. -/
theorem streamElements_commandEffect (algo : Tag128Algo) {c : Command} (h : leavesStream c.toInstr = true)
    (b : Block) : streamElements (commandEffect algo c b) = streamElements b := by
  cases c with
  | init w var =>
    have hvar : 2 ≤ var.toNat := of_decide_eq_true h
    simp only [commandEffect, Variant.ofCode_eq_none.2 hvar, streamElements_raiseError]
  | write n =>
    have hn : 8 < n.toNat := of_decide_eq_true h
    simp only [commandEffect, if_pos hn, streamElements_raiseError]
  | finish =>
    rw [commandEffect, whenInitialized]
    split
    · exact streamElements_writeTags algo b
    · exact streamElements_raiseError _ b

theorem exec_leavesStream {i : Instr} (h : leavesStream i = true) (s : State) :
    ∃ t, exec i s = .next t ∧ t.params = s.params ∧ streamElements t.block = streamElements s.block := by
  obtain ⟨r, -, hx⟩ | ⟨r, v, -, -, hx⟩ | ⟨v, e, -, -, hx⟩ | ⟨c, hc, hx⟩ := exec_cases i s
  · exact ⟨_, hx, rfl, rfl⟩
  · exact ⟨_, hx, rfl, streamElements_storeReg r v s.block⟩
  · exact ⟨_, hx, rfl, streamElements_raiseError _ s.block⟩
  · refine ⟨_, hx, rfl, streamElements_commandEffect _ ?_ s.block⟩
    obtain rfl | ⟨v, rfl, hd⟩ := hc
    · exact h
    · rwa [leavesStream_wr_cmd hd] at h

theorem execAll_leavesStream (is : List Instr) : ∀ s : State, (∀ i ∈ is, leavesStream i = true) →
    ∃ t, execAll is s = .next t ∧ t.params = s.params ∧ streamElements t.block = streamElements s.block := by
  induction is with
  | nil => exact fun s _ => ⟨s, rfl, rfl, rfl⟩
  | cons i is ih =>
    intro s h
    obtain ⟨u, hu, hparams, hstream⟩ := exec_leavesStream (h i List.mem_cons_self) s
    obtain ⟨t, ht, hparams', hstream'⟩ := ih u fun j hj => h j (List.mem_cons_of_mem i hj)
    exact ⟨t, (execAll_cons is hu).trans ht, hparams'.trans hparams, hstream'.trans hstream⟩

/-- Settles O40: the second FINISH reads what the first one read. -/
theorem finishIsRepeatable : Obligations.FinishIsRepeatable := by
  unfold Obligations.FinishIsRepeatable
  intro s between hi hbetween
  obtain ⟨m, hm, hparams, hstream⟩ :=
    execAll_leavesStream between (s.setBlock (writeTags s.params.tag128Algo s.block)) hbetween
  rw [State.setBlock_params] at hparams
  rw [State.setBlock_block, streamElements_writeTags] at hstream
  have hmi : m.block.initd = true := (congrArg StreamElements.initd hstream).trans hi
  have hsecond : exec .finish m = .next (m.setBlock (writeTags s.params.tag128Algo m.block)) :=
    hparams ▸ exec_finish_of_initd hmi
  have hrun : execAll (between ++ [.finish]) (s.setBlock (writeTags s.params.tag128Algo s.block)) =
      .next (m.setBlock (writeTags s.params.tag128Algo m.block)) := by
    rw [execAll_append _ hm, execAll_cons _ hsecond, execAll]
  exact ⟨_, _, exec_finish_of_initd hi, hrun, rfl, rfl, rfl, rfl, rfl, rfl, rfl, rfl, writeTags_tags_congr _ hstream⟩

end Sys2Proof.Machine
end

section
/-! The host port (45_host_port.md R97 to R104): what a transaction does to the registers, how a command word is
dispatched, and which registers belong to the host. -/

namespace Sys2Proof.Machine

/-! ### Dispatch (R99) -/

/-- A legal word of a command that needs a key has one cause of rejection in UNINIT (60_exceptions.md R106). -/
theorem rejectionCode_of_uninit {v : Word} {c : Command} (hd : decodeCommand v = .ok c)
    (hop : opField v ∈ [0x2, 0x3]) :
    rejectionCode v false = some .notInitialized := by
  have hlegal : v ∈ legalCommandWords := (decodeCommand_accepts_iff v).1 ⟨c, hd⟩
  have hknown : opField v ∈ [0x1, 0x2, 0x3] := List.mem_cons_of_mem _ hop
  rw [rejectionCode, if_neg (not_not.2 hknown), if_neg (not_not.2 hlegal), if_pos ⟨hop, rfl⟩]

/-- Settles O8: a reserved word has the decoder's cause, a legal one in UNINIT has code 3, and any other runs. -/
theorem dispatchFollowsItsRule : Obligations.DispatchFollowsItsRule := by
  unfold Obligations.DispatchFollowsItsRule
  intro s v
  refine ⟨exec_wr_cmd_error s, exec_wr_cmd_error s, fun c hd hop hi => ?_, fun c hd _ => exec_wr_cmd_ok s hd⟩
  exact exec_wr_cmd_rejected (hi ▸ rejectionCode_of_uninit hd hop)

/-! ### The host's own registers (R102) -/

/-- The registers that hold what the host last wrote, and that no command writes. -/
def HostOwned (r : PortReg) : Prop := r = .din ∨ r = .key0 ∨ r = .key1

theorem readReg_storeReg_of_ne {r r' : PortReg} (h : r' ≠ r) (v : Word) (b : Block) :
    readReg r (storeReg r' v b) = readReg r b := by
  cases r' with
  | cmd | tag0 | tag1 | status | reserved7 => rfl
  | din => cases r with
    | din => exact absurd rfl h
    | _ => rfl
  | key0 => cases r with
    | key0 => exact absurd rfl h
    | _ => rfl
  | key1 => cases r with
    | key1 => exact absurd rfl h
    | _ => rfl

theorem HostOwned.readReg_raiseError {r : PortReg} (h : HostOwned r) (ec : ErrorCode) (b : Block) :
    readReg r (raiseError ec b) = readReg r b := by
  obtain rfl | rfl | rfl := h
  · exact raiseError_din ec b
  · exact raiseError_key0 ec b
  · exact raiseError_key1 ec b

/-- Of all events but reset only a write to a register of the host reaches it. -/
theorem EventEffect.readReg_eq {p : Params} {e : HostEvent} {b b' : Block} (h : EventEffect p e b b') {r : PortReg}
    (hr : HostOwned r) (hreset : e ≠ .reset) (hwr : ∀ x, eventInstr p e ≠ some (.wr r x)) :
    readReg r b' = readReg r b := by
  cases h with
  | reset he => exact absurd he hreset
  | read r' he => rfl
  | store r' v he _ =>
    have hne : r' ≠ r := by
      rintro rfl
      exact hwr v he
    exact readReg_storeReg_of_ne hne v b
  | reject i ec he hi => exact hr.readReg_raiseError ec b
  | start w x he | append n he hn hi | finish he hi => obtain rfl | rfl | rfl := hr <;> rfl

/-- Settles O18, by the effect of the event on each of the three registers. -/
theorem hostRegistersBelongToTheHost : Obligations.HostRegistersBelongToTheHost := by
  unfold Obligations.HostRegistersBelongToTheHost
  intro s t e rest hp hstep hreset
  obtain ⟨-, heff⟩ := step_eventEffect hp hstep
  exact ⟨heff.readReg_eq (r := .din) (.inl rfl) hreset, heff.readReg_eq (r := .key0) (.inr (.inl rfl)) hreset,
    heff.readReg_eq (r := .key1) (.inr (.inr rfl)) hreset⟩

/-! ### Transactions (R97, R98, R100, R103, R104) -/

/-- Settles O7: with the queue empty there is no event to perform. -/
theorem idleStepChangesNothing : Obligations.IdleStepChangesNothing := by
  unfold Obligations.IdleStepChangesNothing
  exact fun _ => step_nil

/-- Settles O9, from the four ways in which an instruction completes. -/
theorem everyInstructionCompletes : Obligations.EveryInstructionCompletes := by
  unfold Obligations.EveryInstructionCompletes
  exact exec_keeps_params_pending

/-- Settles O15: the data returned is what `readReg` gives, register by register. -/
theorem rdReturnsRegister : Obligations.RdReturnsRegister := by
  unfold Obligations.RdReturnsRegister
  intro s r
  rw [exec_rd]
  cases r <;> rfl

/-- Settles O17: at every index but CMD, WR is `storeReg`, which ignores the read-only and reserved ones. -/
theorem wrFollowsItsRule : Obligations.WrFollowsItsRule := by
  unfold Obligations.WrFollowsItsRule
  intro s x
  have hstore (r : PortReg) (hr : r ≠ .cmd) := exec_wr_store r x s hr
  exact ⟨hstore .din (by decide), hstore .key0 (by decide), hstore .key1 (by decide), hstore .tag0 (by decide),
    hstore .tag1 (by decide), hstore .status (by decide), hstore .reserved7 (by decide), rfl⟩

end Sys2Proof.Machine
end

section
/-! The error action (60_exceptions.md R106 to R109): which command words are rejected, and how long ERR and ECODE stay. -/

namespace Sys2Proof.Machine

/-! ### The causes of a rejection (R106 to R108) -/

theorem decodeCommand_of_rejectionCode_none {v : Word} {initd : Bool} (h : rejectionCode v initd = none) :
    ∃ c, decodeCommand v = .ok c := by
  rw [decodeCommand_accepts_iff]
  by_contra hreserved
  unfold rejectionCode at h
  split_ifs at h

/-- Settles O46: a cause is raised and nothing else is done, and a word without a cause is legal, so it decodes and runs. -/
theorem rejectionRecordsTheLowestCause : Obligations.RejectionRecordsTheLowestCause := by
  unfold Obligations.RejectionRecordsTheLowestCause
  intro s v
  cases hcode : rejectionCode v s.block.initd with
  | some e =>
    rw [exec_wr_cmd_rejected hcode, raiseError_eq]
    cases e <;> rfl
  | none =>
    obtain ⟨c, hd⟩ := decodeCommand_of_rejectionCode_none hcode
    exact ⟨c, hd, exec_wr_cmd_ok s hd⟩

/-! ### ERR and ECODE over an event (R109) -/

@[simp] theorem storeReg_err (r : PortReg) (v : Word) (b : Block) : (storeReg r v b).err = b.err := by
  cases r <;> rfl

@[simp] theorem storeReg_ecode (r : PortReg) (v : Word) (b : Block) : (storeReg r v b).ecode = b.ecode := by
  cases r <;> rfl

/-- Every event but reset and an accepted INIT leaves a recorded error in place, a second error included. -/
theorem EventEffect.error_sticky {p : Params} {e : HostEvent} {b b' : Block} (h : EventEffect p e b b')
    (herr : b.err = true) (hreset : e ≠ .reset) (hinit : ∀ w x, eventInstr p e = some (.init w x) → 2 ≤ x.toNat) :
    b'.err = true ∧ b'.ecode = b.ecode := by
  cases h with
  | reset he => exact absurd he hreset
  | start w x he => exact absurd (Variant.toNat_code_lt x) (hinit w x.code he).not_gt
  | read r he => exact ⟨herr, rfl⟩
  | store r v he hr => simp [herr]
  | reject i ec he hi => simp [herr]
  | append n he hn hi => exact ⟨herr, rfl⟩
  | finish he hi => exact ⟨herr, rfl⟩

/-- Settles O47: the reset block and a new instance hold no error, and every other effect keeps the recorded one. -/
theorem errorsAreSticky : Obligations.ErrorsAreSticky := by
  unfold Obligations.ErrorsAreSticky
  intro s t e rest hp hstep
  obtain ⟨-, heff⟩ := step_eventEffect hp hstep
  refine ⟨?_, heff.error_sticky⟩
  rintro (rfl | ⟨w, x, hinit, hx⟩)
  · rw [heff.eq_reset]; exact ⟨rfl, rfl⟩
  · obtain ⟨var, hb⟩ := heff.eq_startInstance hinit hx
    rw [hb]; exact ⟨rfl, rfl⟩

end Sys2Proof.Machine
end

section
/-! Reset and hazards (70_reset_and_hazards.md): when the tags may change (R125), and what a block without an instance
keeps hidden (R120). -/

namespace Sys2Proof.Machine

/-! ### TAG0, TAG1 and TV (R125) -/

/-- TAG0, TAG1 and TV, the elements that FINISH writes. -/
def tagElements (b : Block) : Word × Word × Bool := (b.tag0, b.tag1, b.tv)

@[simp] theorem tagElements_storeReg (r : PortReg) (v : Word) (b : Block) :
    tagElements (storeReg r v b) = tagElements b := by
  cases r <;> rfl

@[simp] theorem tagElements_raiseError (ec : ErrorCode) (b : Block) :
    tagElements (raiseError ec b) = tagElements b := by
  simp [tagElements]

/-- Of all effects, the start of an instance, reset and FINISH alone reach the tags. -/
theorem EventEffect.tagElements_eq {p : Params} {e : HostEvent} {b b' : Block} (h : EventEffect p e b b')
    (hreset : e ≠ .reset) (hfinish : ¬(eventInstr p e = some .finish ∧ b.initd = true))
    (hinit : ∀ w x, eventInstr p e = some (.init w x) → 2 ≤ x.toNat) : tagElements b' = tagElements b := by
  cases h with
  | reset he => exact absurd he hreset
  | start w x he => exact absurd (Variant.toNat_code_lt x) (hinit w x.code he).not_gt
  | finish he hi => exact absurd ⟨he, hi⟩ hfinish
  | read r he => rfl
  | store r v he hr => exact tagElements_storeReg r v b
  | reject i ec he hi => exact tagElements_raiseError ec b
  | append n he hn hi => rfl

/-- An initialized block accepts FINISH (44_finalization.md R92). -/
theorem EventEffect.eq_writeTags {p : Params} {e : HostEvent} {b b' : Block} (h : EventEffect p e b b')
    (hfinish : eventInstr p e = some .finish) (hi : b.initd = true) : b' = writeTags p.tag128Algo b := by
  cases h with
  | reset he => subst he; exact nomatch hfinish
  | finish he _ => rfl
  | reject i ec he hrejected =>
    obtain rfl : .finish = i := Option.some.inj (hfinish.symm.trans he)
    exact absurd (hi.symm.trans hrejected) (by decide)
  | read r he | store r v he hr | start w x he | append n he hn _ =>
    rw [hfinish] at he
    exact nomatch he

/-- Without a valid tag both TAG registers hold 0, by the block invariant. -/
theorem exec_rd_tags_of_not_tv {s : State} (hinv : s.block.Inv) (htv : s.block.tv = false) :
    exec (.rd .tag0) s = .next (s.returnData 0) ∧ exec (.rd .tag1) s = .next (s.returnData 0) := by
  obtain ⟨h0, h1⟩ := hinv.tags_zero htv
  simp only [exec_rd, readReg, h0, h1, and_self]

/-- Settles O19, by the effect of the event on the tags. -/
theorem tagsChangeOnlyAtFinishInitReset : Obligations.TagsChangeOnlyAtFinishInitReset := by
  unfold Obligations.TagsChangeOnlyAtFinishInitReset
  refine ⟨fun s t e rest hp hstep => ?_, fun s => exec_rd_tags_of_not_tv⟩
  obtain ⟨-, heff⟩ := step_eventEffect hp hstep
  refine ⟨fun hreset hfinish hinit => ?_, ?_, fun hfinish hi => ?_⟩
  · simpa only [tagElements, Prod.mk.injEq] using heff.tagElements_eq hreset hfinish hinit
  · rintro (rfl | ⟨w, x, hinit, hx⟩)
    · rw [heff.eq_reset]; exact ⟨rfl, rfl, rfl⟩
    · obtain ⟨var, hb⟩ := heff.eq_startInstance hinit hx
      rw [hb]; exact ⟨rfl, rfl, rfl⟩
  · rw [heff.eq_writeTags hfinish hi]; rfl

/-! ### Before the first accepted INIT (R120) -/

/-- A block that is `b` but for V0..V3, LEN and the bytes of TAIL. -/
inductive Block.SameButStream (b : Block) : Block → Prop
  | intro (v : HashState) (tail : List Byte) (len : Word) (hlen : tail.length = b.tail.length) :
      SameButStream b { b with v := v, tail := tail, len := len }

theorem Block.SameButStream.refl (b : Block) : b.SameButStream b := .intro b.v b.tail b.len rfl

theorem Block.SameButStream.eq_update {b b' : Block} (h : b.SameButStream b') :
    b' = { b with v := b'.v, tail := b'.tail, len := b'.len } := by
  cases h; rfl

theorem Block.SameButStream.length_tail_eq {b b' : Block} (h : b.SameButStream b') :
    b'.tail.length = b.tail.length := by
  cases h; assumption

/-- Of the stream a read shows NTAIL alone (10_state.md R29). -/
theorem Block.SameButStream.readReg_eq {b b' : Block} (h : b.SameButStream b') (r : PortReg) :
    readReg r b' = readReg r b := by
  obtain ⟨v, tail, len, hlen⟩ := h
  cases r with
  | status => simp only [readReg, statusWord, Block.ntail, hlen]
  | _ => rfl

/-- On a block without an instance the map reads nothing of the stream: its results differ in the stream alone, and
where it starts an instance, in nothing. -/
def StreamBlind (f : Block → Block) : Prop :=
  ∀ b b' : Block, b.initd = false → b.SameButStream b' →
    (f b).SameButStream (f b') ∧ ((f b).initd = true → f b' = f b)

/-- A map that starts no instance need only keep the difference to the stream. -/
theorem streamBlind_of_initd_eq {f : Block → Block} (hinitd : ∀ b, (f b).initd = b.initd)
    (hf : ∀ b b' : Block, b.SameButStream b' → (f b).SameButStream (f b')) : StreamBlind f := by
  intro b b' hi h
  refine ⟨hf b b' h, fun hi' => ?_⟩
  rw [hinitd, hi] at hi'
  exact nomatch hi'

theorem streamBlind_storeReg (r : PortReg) (x : Word) : StreamBlind (storeReg r x) := by
  refine streamBlind_of_initd_eq (storeReg_initd r x) ?_
  rintro b _ ⟨v, tail, len, hlen⟩
  cases r <;> exact .intro v tail len hlen

theorem streamBlind_raiseError (ec : ErrorCode) : StreamBlind (raiseError ec) := by
  refine streamBlind_of_initd_eq (raiseError_initd ec) ?_
  rintro b _ ⟨v, tail, len, hlen⟩
  simp only [raiseError_eq]
  exact .intro v tail len hlen

/-- INIT reads the keys alone and overwrites the stream (42_initialization.md R71). -/
theorem streamBlind_startInstance (algo : Tag128Algo) (w : TagWidth) (x : Variant) :
    StreamBlind (startInstance algo w x) := by
  rintro b _ - ⟨v, tail, len, hlen⟩
  exact ⟨.refl _, fun _ => rfl⟩

/-- A command that needs a key is rejected, whatever it would do. -/
theorem streamBlind_whenInitialized (f : Block → Block) : StreamBlind (whenInitialized f) := by
  intro b b' hi h
  have hi' : b'.initd = false := by cases h; exact hi
  rw [whenInitialized_of_uninit f hi, whenInitialized_of_uninit f hi']
  exact streamBlind_raiseError .notInitialized b b' hi h

theorem streamBlind_commandEffect (algo : Tag128Algo) (c : Command) : StreamBlind (commandEffect algo c) := by
  intro b b' hi h
  cases c with
  | init w var =>
    cases hx : Variant.ofCode var with
    | some x => simpa only [commandEffect, hx] using streamBlind_startInstance algo w x b b' hi h
    | none => simpa only [commandEffect, hx] using streamBlind_raiseError .reservedField b b' hi h
  | write n =>
    by_cases hn : 8 < n.toNat
    · simpa only [commandEffect, hn, if_true] using streamBlind_raiseError .reservedField b b' hi h
    · simpa only [commandEffect, hn, if_false] using streamBlind_whenInitialized _ b b' hi h
  | finish => exact streamBlind_whenInitialized _ b b' hi h

/-- An instruction is a read, or it maps the block alike in all states with the parameters of `s`. -/
theorem exec_rd_or_streamBlind (i : Instr) (s : State) : (∃ r, i = .rd r) ∨
    ∃ f, StreamBlind f ∧ ∀ u : State, u.params = s.params → exec i u = .next (u.setBlock (f u.block)) := by
  obtain ⟨r, rfl, -⟩ | ⟨r, v, rfl, hr, -⟩ | ⟨v, e, rfl, hd, -⟩ | ⟨c, hc, -⟩ := exec_cases i s
  · exact .inl ⟨r, rfl⟩
  · exact .inr ⟨_, streamBlind_storeReg r v, fun u _ => exec_wr_store r v u hr⟩
  · exact .inr ⟨_, streamBlind_raiseError _, fun u _ => exec_wr_cmd_error u hd⟩
  · refine .inr ⟨_, streamBlind_commandEffect s.params.tag128Algo c, fun u hu => ?_⟩
    rw [← hu]
    obtain rfl | ⟨v, rfl, hd⟩ := hc
    · exact exec_command c u
    · exact (exec_wr_cmd_ok u hd).trans (exec_command c u)

theorem exec_sameButStream (i : Instr) {s t : State} {b' : Block} (hi : s.block.initd = false)
    (h : s.block.SameButStream b') (hx : exec i s = .next t) :
    ∃ c, exec i (s.setBlock b') = .next (t.setBlock c) ∧ t.block.SameButStream c ∧
      (t.block.initd = true → c = t.block) := by
  obtain ⟨r, rfl⟩ | ⟨f, hf, hmap⟩ := exec_rd_or_streamBlind i s
  · obtain rfl := Host.Outcome.next.inj hx
    refine ⟨b', ?_, h, fun hi' => absurd (hi'.symm.trans hi) (by decide)⟩
    rw [exec_rd, State.setBlock_block, h.readReg_eq r]; rfl
  · obtain rfl := Host.Outcome.next.inj ((hmap s rfl).symm.trans hx)
    exact ⟨f b', hmap (s.setBlock b') rfl, hf s.block b' hi h⟩

theorem step_sameButStream {s t : State} {b' : Block} (hi : s.block.initd = false) (h : s.block.SameButStream b')
    (hstep : step s = .next t) :
    ∃ c, step (s.setBlock b') = .next (t.setBlock c) ∧ t.block.SameButStream c ∧
      ((t.block.initd = true ∨ ∃ rest, s.host.pending = .reset :: rest) → c = t.block) := by
  obtain ⟨hp, rfl⟩ | ⟨rest, hp, rfl⟩ | ⟨e, rest, desc, data, hp, ht, hx⟩ := step_next_cases hstep
  · exact ⟨b', step_nil hp, h, by simp [hi, hp]⟩
  · exact ⟨.reset, step_cons (s := s.setBlock b') hp, .refl _, fun _ => rfl⟩
  · obtain ⟨c, hx', hc, hinit⟩ := exec_sameButStream (decodePort desc data) (s := s.setPending rest) hi h hx
    refine ⟨c, (step_of_transaction (s := s.setBlock b') hp ht).trans hx', hc, ?_⟩
    rintro (hi' | ⟨rest', hreset⟩)
    · exact hinit hi'
    · obtain ⟨rfl, -⟩ := List.cons.inj (hp.symm.trans hreset)
      exact nomatch ht

/-- Settles O50: the other block of the statement differs in the stream alone, and so does what the step leaves. -/
theorem uninitHidesHashStateAndLen : Obligations.UninitHidesHashStateAndLen := by
  unfold Obligations.UninitHidesHashStateAndLen
  intro s t v tail len hi hlen hstep
  obtain ⟨c, hstep', hc, hsame⟩ := step_sameButStream hi (.intro v tail len hlen) hstep
  exact ⟨t.setBlock c, hstep', rfl, rfl, hc.eq_update, hc.length_tail_eq, hsame⟩

end Sys2Proof.Machine
end
